-- ==== Sys2Proof/Word.lean ====
section
/-! DEFINITION. The words of the core (00_scope.md rules R6 to R8): all unsigned, bit 0 the least significant. -/

namespace Sys2Proof

/-- A general register, a timer, a byte of memory, the operand `NN` (R20, R25, R50, R82). -/
abbrev Byte := BitVec 8

/-- An instruction word, the address register, the program counter, a return address (R24, R29, R31, R80). -/
abbrev Word := BitVec 16

/-- A 4-bit field: the register indices `X` and `Y`, the sprite height `N` (R82, R85). -/
abbrev Nibble := BitVec 4

/-- The 12-bit field `NNN` (R82). -/
abbrev Addr := BitVec 12

/-- A key identifier, 0 to 15 (R32, R34, R216). -/
abbrev KeyId := Fin 16

end Sys2Proof
end

