-- ==== Sys2Proof/Syntax.lean ====
section
/-! DEFINITION. The decoded operations: one constructor per row of spec/opcode_table.json, with the payload 30_encoding.md rule R85 gives it. -/

namespace Sys2Proof

/-- The closed sum type of R85, its 35 cases in the order of the opcode map (R90). -/
inductive Instr where
  /-- `0NNN`, `SYS addr` (R130). -/
  | sys (nnn : Addr)
  /-- `00E0`, `CLS` (R180). -/
  | cls
  /-- `00EE`, `RET` (R131). -/
  | ret
  /-- `1NNN`, `JP addr` (R132). -/
  | jp (nnn : Addr)
  /-- `2NNN`, `CALL addr` (R133). -/
  | call (nnn : Addr)
  /-- `3XNN`, `SE Vx, byte` (R140). -/
  | seImm (x : Nibble) (nn : Byte)
  /-- `4XNN`, `SNE Vx, byte` (R141). -/
  | sneImm (x : Nibble) (nn : Byte)
  /-- `5XY-`, `SE Vx, Vy` (R142); the low nibble is dropped by the decoder (R94). -/
  | seReg (x y : Nibble)
  /-- `6XNN`, `LD Vx, byte` (R150). -/
  | ldImm (x : Nibble) (nn : Byte)
  /-- `7XNN`, `ADD Vx, byte` (R151). -/
  | addImm (x : Nibble) (nn : Byte)
  /-- `8XY0`, `LD Vx, Vy` (R152). -/
  | ldReg (x y : Nibble)
  /-- `8XY1`, `OR Vx, Vy` (R153). -/
  | or (x y : Nibble)
  /-- `8XY2`, `AND Vx, Vy` (R154). -/
  | and (x y : Nibble)
  /-- `8XY3`, `XOR Vx, Vy` (R155). -/
  | xor (x y : Nibble)
  /-- `8XY4`, `ADD Vx, Vy` (R156). -/
  | addReg (x y : Nibble)
  /-- `8XY5`, `SUB Vx, Vy` (R157). -/
  | sub (x y : Nibble)
  /-- `8XY6`, `SHR Vx` (R158); `Y` is carried and unused. -/
  | shr (x y : Nibble)
  /-- `8XY7`, `SUBN Vx, Vy` (R159). -/
  | subn (x y : Nibble)
  /-- `8XYE`, `SHL Vx` (R160); `Y` is carried and unused. -/
  | shl (x y : Nibble)
  /-- `9XY0`, `SNE Vx, Vy` (R143). -/
  | sneReg (x y : Nibble)
  /-- `ANNN`, `LD I, addr` (R170). -/
  | ldI (nnn : Addr)
  /-- `BNNN`, `JP V0, addr` (R134). -/
  | jpV0 (nnn : Addr)
  /-- `CXNN`, `RND Vx, byte` (R161). -/
  | rnd (x : Nibble) (nn : Byte)
  /-- `DXYN`, `DRW Vx, Vy, nibble` (R181). -/
  | drw (x y n : Nibble)
  /-- `EX9E`, `SKP Vx` (R144). -/
  | skp (x : Nibble)
  /-- `EXA1`, `SKNP Vx` (R145). -/
  | sknp (x : Nibble)
  /-- `FX07`, `LD Vx, DT` (R190). -/
  | ldVxDt (x : Nibble)
  /-- `FX0A`, `LD Vx, K` (R191). -/
  | ldVxK (x : Nibble)
  /-- `FX15`, `LD DT, Vx` (R192). -/
  | ldDtVx (x : Nibble)
  /-- `FX18`, `LD ST, Vx` (R193). -/
  | ldStVx (x : Nibble)
  /-- `FX1E`, `ADD I, Vx` (R171). -/
  | addI (x : Nibble)
  /-- `FX29`, `LD F, Vx` (R172). -/
  | ldF (x : Nibble)
  /-- `FX33`, `LD B, Vx` (R173). -/
  | ldB (x : Nibble)
  /-- `FX55`, `LD [I], Vx` (R174). -/
  | storeRegs (x : Nibble)
  /-- `FX65`, `LD Vx, [I]` (R175). -/
  | loadRegs (x : Nibble)
  deriving DecidableEq, Repr

end Sys2Proof
end

