-- ==== Sys2Proof/Config.lean ====
section
/-! DEFINITION. The 22 implementation parameters of 00_scope.md rule R6, each under its name there, and the model's free values. The five
widths are those of `Byte` and `Word`, whose literals keep arithmetic simple: Laws/State.lean proves that each component of the state has
exactly the values of its parameter's width, so neither can be changed without the other. -/

namespace Sys2Proof

/-- `NREGS`, the number of general registers. -/
abbrev Config.nRegs : Nat := 16

/-- `REG_BITS`, the width of a general register: tied to `V[0]` to `V[15]` by `State.getV_range`. -/
abbrev Config.regBits : Nat := 8

/-- `I_BITS`, the width of the address register: tied to `I` by `State.i_range`. -/
abbrev Config.iBits : Nat := 16

/-- `TIMER_BITS`, the width of each timer: tied to `DT` and `ST` by `State.dt_range` and `State.st_range`. -/
abbrev Config.timerBits : Nat := 8

/-- `PC_BITS`, the width of the program counter: tied to `PC` and the return addresses by `State.pc_range`
and `State.stack_range`. -/
abbrev Config.pcBits : Nat := 16

/-- `INSN_BITS`, the width of an instruction word, of what the fetch reads and the decoder takes: tied to `Word` by
`insnWord_range`. -/
abbrev Config.insnBits : Nat := 16

/-- `MEM_SIZE`, the number of addressable bytes: addresses 0x000 to 0xFFE exist (conflict C1). -/
def Config.memSize : Nat := 4095

/-- `PROG_BASE`, the program-offset threshold (decision D3): writes below it are fatal, the program starts at it. -/
def Config.progBase : Nat := 0x200

/-- `GLYPH_BASE`, the address of the first glyph. -/
def Config.glyphBase : Nat := 0

/-- `GLYPH_STRIDE`, the bytes of one glyph. -/
def Config.glyphStride : Nat := 5

/-- `NGLYPHS`, the number of glyphs. -/
def Config.nGlyphs : Nat := 16

/-- `WIDTH`, the display columns (decision D5). -/
abbrev Config.width : Nat := 64

/-- `HEIGHT`, the display rows (decision D5). -/
abbrev Config.height : Nat := 32

/-- `NKEYS`, the number of key identifiers. -/
abbrev Config.nKeys : Nat := 16

/-- `STACK_DEPTH`, the bound of the call stack: none (R31, decision D22). -/
def Config.stackDepth : Option Nat := none

/-- `TICK_HZ`, nominal; no rule depends on it (R265, decision D27). -/
def Config.tickHz : Nat := 60

/-- `MEM_FILL`, the initial value of memory that neither glyphs nor program cover (decision D10). -/
def Config.memFill : Byte := 0x00

/-- `SHIFT_IN_PLACE`: `SHR` and `SHL` shift `V[X]` itself and ignore `Y` (decision D11). Read by `shiftReg`. -/
def Config.shiftInPlace : Bool := true

/-- `VF_WRITE_LAST`: a flag-writing instruction writes its result, then `VF` (decision D12). Read by `State.setResultFlag`. -/
def Config.vfWriteLast : Bool := true

/-- `KEY_WAIT_BLOCKING`: `LD Vx, K` waits for a key (R191, decision D29). The spec defines no blocking variant (U5), so
no definition branches on it: `keyWait` is the single decision point where a variant would be put. -/
def Config.keyWaitBlocking : Bool := false

/-- `BLOCK_ADVANCES_I`: `LD B`, `LD [I],Vx` and `LD Vx,[I]` change `I` (decision D14). The spec does not say by how much the other
value would change it, so no definition branches on it. -/
def Config.blockAdvancesI : Bool := false

/-- The bytes of glyphs 0 to 7 of 20_memory.md rule R58. -/
def Config.glyphRomLow : List Byte :=
  [0xF0, 0x90, 0x90, 0x90, 0xF0] ++ [0x20, 0x60, 0x20, 0x20, 0x70] ++
  [0xF0, 0x10, 0xF0, 0x80, 0xF0] ++ [0xF0, 0x10, 0xF0, 0x10, 0xF0] ++
  [0x90, 0x90, 0xF0, 0x10, 0x10] ++ [0xF0, 0x80, 0xF0, 0x10, 0xF0] ++
  [0xF0, 0x80, 0xF0, 0x90, 0xF0] ++ [0xF0, 0x10, 0x20, 0x40, 0x40]

/-- The bytes of glyphs 8 to F of 20_memory.md rule R58. -/
def Config.glyphRomHigh : List Byte :=
  [0xF0, 0x90, 0xF0, 0x90, 0xF0] ++ [0xF0, 0x90, 0xF0, 0x10, 0xF0] ++
  [0xF0, 0x90, 0xF0, 0x90, 0x90] ++ [0xE0, 0x90, 0xE0, 0x90, 0xE0] ++
  [0xF0, 0x80, 0x80, 0x80, 0xF0] ++ [0xE0, 0x90, 0x90, 0x90, 0xE0] ++
  [0xF0, 0x80, 0xF0, 0x80, 0xF0] ++ [0xF0, 0x80, 0xF0, 0x80, 0x80]

/-- `GLYPH_ROM`, the 80 glyph bytes (rule R58, decision D6). -/
def Config.glyphRom : List Byte := Config.glyphRomLow ++ Config.glyphRomHigh

/-- FREE VALUE (log 4): the `rand` byte of the `n`-th executed `RND` (43_load_alu.md rule R161, decision D25). Nothing is known of
it, so whatever is proved holds for every sequence of draws. -/
opaque Config.randomByte : Nat → Byte

end Sys2Proof
end

