-- ==== Sys2Proof/Machine/State.lean ====
section
/-! DEFINITION. The state of the core (10_state.md), its faults (60_exceptions.md rule R200) and its reset value (10_state.md rule R40). -/

namespace Sys2Proof.Machine

/-- The four fatal errors of R200, each with the `info` it records. A step that raises one answers it as its outcome, where the spec latches it
in `STATUS` (log 1): safe, since the spec leaves every other component of a halted machine unspecified (R116). -/
inductive Fault where
  /-- Code 1: raised by a step whose fetched word is in the illegal set (R201); `info` is the word. Safe: the spec's own stop. -/
  | malformedInstruction (w : Word)
  /-- Code 2: raised by `LD B, Vx` and `LD [I], Vx` writing below `PROG_BASE` (R202); `info` is the address. Safe: the spec's own stop. -/
  | memoryProtectionViolation (addr : Nat)
  /-- Code 3: raised by `RET` on an empty stack (R203); `info` is the `PC`. Safe: the spec's own stop. -/
  | stackUnderflow (pc : Word)
  /-- Code 4: raised by the fetch, `DRW`, `LD Vx, [I]`, `LD B, Vx`, `LD [I], Vx` at or above `MEM_SIZE` (R204); `info` is the address, a
  mathematical integer (R9). Safe: the spec's own stop. -/
  | memoryOutOfRange (addr : Nat)
  deriving DecidableEq, Repr, Inhabited

/-- Why the model gives an instruction no meaning. -/
inductive Refusal where
  /-- Raised by `exec` alone, for an instruction that has no meaning yet. Safe: nothing is claimed of it. Every instruction has its
  meaning, so no arm answers it. -/
  | notModelled (mnemonic : String)
  deriving DecidableEq, Repr

/-- The run status (R37). -/
inductive Status where
  | running
  | halted (f : Fault)
  deriving DecidableEq, Repr, Inhabited

/-- `MEM`, as the bytes that differ from the reset contents, addresses rising (see `Memory.wf` and `Memory.resetByte`). -/
abbrev Memory := List Host.Cell

/-- `DISP`: rows of cells, row 0 first, column 0 first within a row; `true` is on, the value 1 (R33). -/
abbrev Display := Vector (Vector Bool Config.width) Config.height

/-- A frame: a copy of all cells of `DISP` (R36). -/
abbrev Frame := Display

/-- A set of key identifiers: entry `k` says whether `k` is in it (R34: "that is 16 bits"). -/
abbrev KeySet := Vector Bool Config.nKeys

/-- Every piece of state 10_state.md gives the core, and the model's own count of random draws. -/
structure State where
  /-- `V[0]` to `V[15]` (R20); `V[15]` is the flag register `VF` (R22). -/
  v : Vector Byte Config.nRegs
  /-- The address register `I` (R24). -/
  i : Word
  /-- The delay timer `DT` (R25). -/
  dt : Byte
  /-- The sound timer `ST` (R26). -/
  st : Byte
  /-- The program counter `PC` (R29). -/
  pc : Word
  /-- The call stack `STACK`, the last element on top (R31). -/
  stack : List Word
  /-- Main memory `MEM` (R32, R50). -/
  mem : Memory
  /-- The display surface `DISP` (R33). -/
  disp : Display
  /-- The held-key set `HELD` (R34). -/
  held : KeySet
  /-- The queue of press events, oldest first (R35). -/
  pressQ : List KeyId
  /-- The queue of release events, oldest first (R35). -/
  relQ : List KeyId
  /-- The frame slot `FRAME`; `none` is `empty` (R36). -/
  frame : Option Frame
  /-- The run status `STATUS` (R37). -/
  status : Status
  /-- THE MODEL'S OWN: how many random bytes `RND` has drawn (R161: "a fresh one for every executed `RND`"; log 4). No move makes it smaller,
  reset included. -/
  draws : Nat
  deriving DecidableEq, Repr, Inhabited

/-- The machine right after reset with an empty program image (R40, 70_reset_and_hazards.md rule R251; `resetWith` loads an image). -/
def State.reset : State where
  v := Vector.replicate _ 0
  i := 0
  dt := 0
  st := 0
  pc := BitVec.ofNat 16 Config.progBase
  stack := []
  mem := []
  disp := Vector.replicate _ (Vector.replicate _ false)
  held := Vector.replicate _ false
  pressQ := []
  relQ := []
  frame := none
  status := .running
  draws := 0

end Sys2Proof.Machine
end

