-- ==== Sys2Proof/Machine/Ops.lean ====
section
/-! DEFINITION. The named operations over the state: registers, memory (20_memory.md rules R53 to R57), the call stack, the display, the key set,
the program counter (40_step_cycle.md rule R113) and taking a fault (60_exceptions.md rule R206). -/

/-- FREE VALUE (log 1): what a machine halted by a fault holds in the components 40_step_cycle.md rule R116 leaves unspecified. Nothing is
known of it, so nothing can be proved of those components. -/
opaque Sys2Proof.Config.afterFault : Sys2Proof.Machine.State → Sys2Proof.Machine.Fault → Sys2Proof.Machine.State

namespace Sys2Proof.Machine

/-- What a step or a meaning answers. -/
abbrev Result := Host.Outcome State Fault Refusal

/-! Field writes -/

/-- Write `i` and nothing else. -/
def State.setI (s : State) (new : Word) : State := { s with i := new }

/-- Write `dt` and nothing else. -/
def State.setDT (s : State) (new : Byte) : State := { s with dt := new }

/-- Write `st` and nothing else. -/
def State.setST (s : State) (new : Byte) : State := { s with st := new }

/-- Write `pc` and nothing else. -/
def State.setPC (s : State) (new : Word) : State := { s with pc := new }

/-- Write `stack` and nothing else. -/
def State.setStack (s : State) (new : List Word) : State := { s with stack := new }

/-- Write `mem` and nothing else. -/
def State.setMem (s : State) (new : Memory) : State := { s with mem := new }

/-- Write `disp` and nothing else. -/
def State.setDisp (s : State) (new : Display) : State := { s with disp := new }

/-- Write `held` and nothing else. -/
def State.setHeld (s : State) (new : KeySet) : State := { s with held := new }

/-- Write `pressQ` and nothing else. -/
def State.setPressQ (s : State) (new : List KeyId) : State := { s with pressQ := new }

/-- Write `relQ` and nothing else. -/
def State.setRelQ (s : State) (new : List KeyId) : State := { s with relQ := new }

/-- Write `frame` and nothing else. -/
def State.setFrame (s : State) (new : Option Frame) : State := { s with frame := new }

/-- Write `status` and nothing else. -/
def State.setStatus (s : State) (new : Status) : State := { s with status := new }

/-- Write `draws` and nothing else. -/
def State.setDraws (s : State) (new : Nat) : State := { s with draws := new }

/-! General registers (R20, R22) -/

/-- A 4-bit field is a register index (30_encoding.md rule R96). -/
theorem nibble_lt_nRegs (x : Nibble) : x.toNat < Config.nRegs := x.isLt

/-- The read `V[x]`. -/
def State.getV (s : State) (x : Nibble) : Byte := s.v[x.toNat]'(nibble_lt_nRegs x)

/-- The write `V[x] <- b`. -/
def State.setV (s : State) (x : Nibble) (b : Byte) : State := { s with v := s.v.set x.toNat b (nibble_lt_nRegs x) }

/-- `VF`, register 15 (R22). -/
def flagReg : Nibble := 0xF

/-- Write a result and the flag of a flag-writing instruction, the flag last (R23, decision D12): with `x = 15` the flag remains. -/
def State.setResultFlag (s : State) (x : Nibble) (result flag : Byte) : State :=
  if Config.vfWriteLast then (s.setV x result).setV flagReg flag else (s.setV flagReg flag).setV x result

/-! Main memory (R50, R51) -/

/-- What an address that no write has changed reads as: the reset contents (R40, R58): `GLYPH_ROM` from `GLYPH_BASE`, `MEM_FILL` elsewhere. -/
def Memory.resetByte (a : Nat) : Byte :=
  if Config.glyphBase ≤ a then Config.glyphRom.getD (a - Config.glyphBase) Config.memFill else Config.memFill

/-- The byte at an address. -/
def Memory.get : Memory → Nat → Byte
  | [], a => Memory.resetByte a
  | c :: rest, a => if c.1 = a then c.2 else Memory.get rest a

/-- Take an address off the list. -/
def Memory.erase (m : Memory) (a : Nat) : Memory := m.filter (fun c => c.1 != a)

/-- Put an address that is not listed in its place. -/
def Memory.insert : Memory → Nat → Byte → Memory
  | [], a, b => [(a, b)]
  | c :: rest, a, b => if a < c.1 then (a, b) :: c :: rest else c :: Memory.insert rest a b

/-- The write of one byte, which keeps the canonical form: the value an unlisted address reads as is not listed. -/
def Memory.put (m : Memory) (a : Nat) (b : Byte) : Memory :=
  if b = Memory.resetByte a then m.erase a else (m.erase a).insert a b

/-- The canonical form: addresses strictly rising, each one exists (R50), none listed with what it reads as unlisted. -/
abbrev Memory.wf (m : Memory) : Prop :=
  m.Pairwise (fun c d => c.1 < d.1) ∧ ∀ c ∈ m, c.1 < Config.memSize ∧ c.2 ≠ Memory.resetByte c.1

/-- `MemRead(a, 1)` (R53). -/
def memRead (s : State) (a : Nat) : Except Fault Byte :=
  if a < Config.memSize then .ok (s.mem.get a) else .error (.memoryOutOfRange a)

/-- `MemRead(a, 2)`, big-endian (R53, R57): the fault names `a` whichever of the two bytes does not exist. -/
def memReadWord (s : State) (a : Nat) : Except Fault Word :=
  if a + 1 < Config.memSize then .ok (wordOfBytes (s.mem.get a) (s.mem.get (a + 1))) else .error (.memoryOutOfRange a)

/-- `MemWrite(a, 1, b)` (R54, R55). -/
def memWrite (s : State) (a : Nat) (b : Byte) : Except Fault State :=
  if a < Config.progBase then .error (.memoryProtectionViolation a)
  else if a < Config.memSize then .ok (s.setMem (s.mem.put a b))
  else .error (.memoryOutOfRange a)

/-- `MemWrite` of consecutive bytes in ascending order (R173, R174): the first offending address faults. -/
def storeBytes (s : State) (a : Nat) : List Byte → Except Fault State
  | [] => .ok s
  | b :: rest =>
    match memWrite s a b with
    | .ok t => storeBytes t (a + 1) rest
    | .error f => .error f

/-- `V[k], V[k+1], ... <- MemRead(base + k, 1), ...` for `n` registers in ascending order (R175). -/
def loadRegsFrom (s : State) (base k : Nat) : Nat → Except Fault State
  | 0 => .ok s
  | n + 1 =>
    match memRead s (base + k) with
    | .ok b => loadRegsFrom (s.setV (BitVec.ofNat 4 k) b) base (k + 1) n
    | .error f => .error f

/-- Bytes installed by reset, not by `MemWrite` (R61, R251). -/
def installBytes (m : Memory) (a : Nat) : List Byte → Memory
  | [] => m
  | b :: rest => installBytes (m.put a b) (a + 1) rest

/-- The fetch of 40_step_cycle.md rule R110. -/
def fetch (s : State) : Except Fault Word := memReadWord s s.pc.toNat

/-- The state with an instruction word where the next fetch reads, if both its bytes exist. -/
def State.placeWord (s : State) (w : Word) : State :=
  if s.pc.toNat + 1 < Config.memSize then s.setMem (installBytes s.mem s.pc.toNat [highByte w, lowByte w]) else s

/-! Call stack (R31) -/

/-- `push(v)`: append to the end. -/
def State.push (s : State) (w : Word) : State := s.setStack (s.stack ++ [w])

/-- `pop()`: the last element and the state without it; the empty stack underflows with the `PC` (R131, R203). -/
def State.pop (s : State) : Except Fault (Word × State) :=
  match s.stack.getLast? with
  | some w => .ok (w, s.setStack s.stack.dropLast)
  | none => .error (.stackUnderflow s.pc)

/-! Display surface (R33, R181) -/

/-- A column reduced modulo `WIDTH` exists. -/
theorem column_lt (x : Nat) : x % Config.width < Config.width := Nat.mod_lt _ (by decide)

/-- A row reduced modulo `HEIGHT` exists. -/
theorem row_lt (y : Nat) : y % Config.height < Config.height := Nat.mod_lt _ (by decide)

/-- The cell `DISP[x mod WIDTH, y mod HEIGHT]`. -/
def Display.cell (d : Display) (x y : Nat) : Bool :=
  (d[y % Config.height]'(row_lt y))[x % Config.width]'(column_lt x)

/-- `DISP[x, y] <- DISP[x, y] xor 1`, both coordinates wrapped. -/
def Display.toggle (d : Display) (x y : Nat) : Display :=
  d.set (y % Config.height)
    ((d[y % Config.height]'(row_lt y)).set (x % Config.width) (!Display.cell d x y) (column_lt x)) (row_lt y)

/-- The display with every cell off (R180). -/
def Display.blank : Display := Vector.replicate _ (Vector.replicate _ false)

/-- The flat sequence of cell values the host sees: cell `(x, y)` is element `y * WIDTH + x` (R33, R214, decision D8). -/
def Display.cells (d : Display) : List Bool := d.toList.flatMap (fun row => row.toList)

/-- The display and the collision so far of one draw. -/
structure Canvas where
  disp : Display
  collision : Bool
  deriving DecidableEq, Repr

/-- One set sprite bit: collision is tested on the cell at that moment, then the cell is toggled (R181). -/
def blitPixel (x y : Nat) (c : Canvas) : Canvas :=
  { disp := Display.toggle c.disp x y, collision := c.collision || Display.cell c.disp x y }

/-- One sprite row, columns ascending; bit 7 is the leftmost pixel (R181, decision D7). -/
def blitRow (b : Byte) (x y : Nat) (c : Canvas) : Canvas :=
  (List.range 8).foldl (fun c col => if b.getLsbD (7 - col) then blitPixel (x + col) y c else c) c

/-- `n` sprite rows from `row` on, ascending, row `row` read at `I + row` (R181). -/
def blitRows (s : State) (x y : Nat) (row : Nat) (c : Canvas) : Nat → Except Fault Canvas
  | 0 => .ok c
  | n + 1 =>
    match memRead s (s.i.toNat + row) with
    | .ok b => blitRows s x y (row + 1) (blitRow b x (y + row) c) n
    | .error f => .error f

/-! Key set (R34, R212) -/

/-- Whether an identifier is in the set; no identifier is above 15. -/
def KeySet.holds (h : KeySet) (k : Nat) : Bool := if hk : k < Config.nKeys then h[k] else false

/-- The smallest identifier in the set, if there is one (R191: `min(HELD)`). -/
def KeySet.lowest (h : KeySet) : Option Nat := (List.range Config.nKeys).find? (fun k => KeySet.holds h k)

/-- Presses applied in queue order. -/
def KeySet.press (h : KeySet) (q : List KeyId) : KeySet := q.foldl (fun h k => h.set k.val true k.isLt) h

/-- Releases applied in queue order. -/
def KeySet.release (h : KeySet) (q : List KeyId) : KeySet := q.foldl (fun h k => h.set k.val false k.isLt) h

/-! Program counter (R113) -/

/-- `pc <- target`. -/
def State.jump (s : State) (target : Word) : State := s.setPC target

/-- The address after the current instruction, `(PC + 2) mod 65536`. -/
def State.nextPC (s : State) : Word := s.pc + 2

/-- The default advance. -/
def State.advance (s : State) : State := s.setPC s.nextPC

/-- A skip instruction: `pc <- (PC + 4) mod 65536` if its condition holds, else the default advance (R113). -/
def State.skipIf (s : State) (c : Bool) : State := if c then s.setPC (s.pc + 4) else s.advance

/-- An operation that may fault, then the default advance. -/
def advanceAfter : Except Fault State → Result
  | .ok t => .next t.advance
  | .error f => .fault f

/-! Taking a fault (R206) -/

/-- Fault entry: `STATUS <- Halted(kind, info)`, `FRAME` keeps what it held, every other component is unspecified (R116). Nothing is saved and
there is no return (R207). The model's own count of draws goes on, so that no draw is given twice (R161, log 4). -/
def State.haltWith (s : State) (f : Fault) : State :=
  { Config.afterFault s f with status := .halted f, frame := s.frame, draws := s.draws }

end Sys2Proof.Machine
end

