-- ==== Sys2Proof/Machine/Operands.lean ====
section
/-! DEFINITION. Every operand form of the instruction set: immediates (30_encoding.md rule R84), the one addressing mode (44_index_memory.md
rule R176), the register block, the decimal digits, the glyph address, the shifted register, the key operands. -/

namespace Sys2Proof.Machine

/-- `zext_16(NNN)` (R84). -/
def addrOperand (nnn : Addr) : Word := nnn.setWidth 16

/-- `zext_16(V[x])`. -/
def regOperand16 (s : State) (x : Nibble) : Word := (s.getV x).setWidth 16

/-- The effective address `I + k`, an unbounded integer (R56, R176). -/
def effAddr (s : State) (k : Nat) : Nat := s.i.toNat + k

/-- The values of `V[0]` to `V[x]`, ascending (R174). -/
def regBlock (s : State) (x : Nibble) : List Byte :=
  (List.range (x.toNat + 1)).map (fun k => s.getV (BitVec.ofNat 4 k))

/-- The hundreds, tens and units digits of a byte (R173). -/
def decimalDigits (v : Byte) : List Byte :=
  [BitVec.ofNat 8 (v.toNat / 100), BitVec.ofNat 8 (v.toNat / 10 % 10), BitVec.ofNat 8 (v.toNat % 10)]

/-- The address of the glyph for a register value, on all 8 bits (R172, decision D15). -/
def glyphAddr (v : Byte) : Word := BitVec.ofNat 16 (Config.glyphBase + Config.glyphStride * v.toNat)

/-- The register a shift reads: `x` itself under `SHIFT_IN_PLACE`, `y` under its other value (R158, R160, decision D11). -/
def shiftReg (x y : Nibble) : Nibble := if Config.shiftInPlace then x else y

/-- Whether the key named by the whole 8-bit `V[x]` is held (R144, decision D16). -/
def keyOperandHeld (s : State) (x : Nibble) : Bool := KeySet.holds s.held (s.getV x).toNat

/-- The random byte of an executed `RND` (R161): a free value. -/
def randOperand (s : State) : Byte := Config.randomByte s.draws

/-- The single decision point of wait-for-key (R191, `KEY_WAIT_BLOCKING` = false): with a key held the destination gets the lowest one, with none
the state is as it was; the instruction advances either way. -/
def keyWait (s : State) (x : Nibble) : State :=
  match KeySet.lowest s.held with
  | some k => s.setV x (BitVec.ofNat 8 k)
  | none => s

end Sys2Proof.Machine
end

