-- ==== Sys2Proof/Machine/Flags.lean ====
section
/-! DEFINITION. Every flag computation of 10_state.md rule R23: the flag register gets the 8-bit value 0 or 1 and no other (R22). -/

namespace Sys2Proof.Machine

/-- The value `VF` is given for a condition. -/
def flagByte (c : Bool) : Byte := if c then 1 else 0

/-- `ADD Vx,Vy`: 1 if `a + b >= 256` (R156). -/
def carryFlag (a b : Byte) : Byte := flagByte (decide (256 ≤ a.toNat + b.toNat))

/-- `SUB Vx,Vy`: 1 if `a >= b`, no borrow (R157); `SUBN` is this of `b` and `a` (R159). -/
def noBorrowFlag (a b : Byte) : Byte := flagByte (decide (b.toNat ≤ a.toNat))

/-- `SHR Vx`: the bit shifted out, `a[0]` (R158). -/
def shiftRightFlag (a : Byte) : Byte := flagByte (a.getLsbD 0)

/-- `SHL Vx`: the bit shifted out, `a[7]` (R160). -/
def shiftLeftFlag (a : Byte) : Byte := flagByte (a.getLsbD 7)

/-- `DRW Vx,Vy,N`: 1 if any cell went from on to off (R181). -/
def collisionFlag (c : Canvas) : Byte := flagByte c.collision

end Sys2Proof.Machine
end

