-- ==== Sys2Proof/Machine/Blit.lean ====
section
/-! DEFINITION. The display instructions (45_display.md). -/

namespace Sys2Proof.Machine

/-- `CLS` (R180): every cell off, `VF` is not written. -/
def execCls (s : State) : Result := .next (s.setDisp Display.blank).advance

/-- `DRW Vx, Vy, nibble` (R181): both coordinates are read before `VF` is written, and `VF` is always written. -/
def execDrw (x y n : Nibble) (s : State) : Result :=
  match blitRows s (s.getV x).toNat (s.getV y).toNat 0 { disp := s.disp, collision := false } n.toNat with
  | .ok c => .next ((s.setDisp c.disp).setV flagReg (collisionFlag c)).advance
  | .error f => .fault f

end Sys2Proof.Machine
end

