-- ==== Sys2Proof/Machine/ControlFlow.lean ====
section
/-! DEFINITION. System call and control transfer (41_control_flow.md). -/

namespace Sys2Proof.Machine

/-- `SYS addr` (R130): "this design treats it as an intentional no-op". -/
def execSys (_nnn : Addr) (s : State) : Result := .next s.advance

/-- `RET` (R131): the popped value is the new `PC`, with no default advance. -/
def execRet (s : State) : Result :=
  match s.pop with
  | .ok (target, t) => .next (t.jump target)
  | .error f => .fault f

/-- `JP addr` (R132). -/
def execJp (nnn : Addr) (s : State) : Result := .next (s.jump (addrOperand nnn))

/-- `CALL addr` (R133): the address pushed is that of the instruction after the `CALL`. -/
def execCall (nnn : Addr) (s : State) : Result := .next ((s.push s.nextPC).jump (addrOperand nnn))

/-- `JP V0, addr` (R134): a wrapping 16-bit add. -/
def execJpV0 (nnn : Addr) (s : State) : Result := .next (s.jump (addrOperand nnn + regOperand16 s 0))

end Sys2Proof.Machine
end

