-- ==== Sys2Proof/Machine/IndexMemory.lean ====
section
/-! DEFINITION. The address register and memory transfers (44_index_memory.md). None writes `VF` as a side effect, and the transfers leave `I`
alone (decision D14). -/

namespace Sys2Proof.Machine

/-- `LD I, addr` (R170). -/
def execLdI (nnn : Addr) (s : State) : Result := .next (s.setI (addrOperand nnn)).advance

/-- `ADD I, Vx` (R171): wraps modulo 65536, `VF` is not written (decision D13). -/
def execAddI (x : Nibble) (s : State) : Result := .next (s.setI (s.i + regOperand16 s x)).advance

/-- `LD F, Vx` (R172). -/
def execLdF (x : Nibble) (s : State) : Result := .next (s.setI (glyphAddr (s.getV x))).advance

/-- `LD B, Vx` (R173): three digits at `I`, `I + 1`, `I + 2`. -/
def execLdB (x : Nibble) (s : State) : Result := advanceAfter (storeBytes s (effAddr s 0) (decimalDigits (s.getV x)))

/-- `LD [I], Vx` (R174): `V[0]` to `V[x]` from `I` on. -/
def execStoreRegs (x : Nibble) (s : State) : Result := advanceAfter (storeBytes s (effAddr s 0) (regBlock s x))

/-- `LD Vx, [I]` (R175): `V[0]` to `V[x]` from `I` on. -/
def execLoadRegs (x : Nibble) (s : State) : Result := advanceAfter (loadRegsFrom s (effAddr s 0) 0 (x.toNat + 1))

end Sys2Proof.Machine
end

