-- ==== Sys2Proof/Machine/LoadAlu.lean ====
section
/-! DEFINITION. Register load, arithmetic, logic, shift and random (43_load_alu.md). Every operand is read from the state before any write
(10_state.md rule R21); all end with the default advance and none faults. -/

namespace Sys2Proof.Machine

/-- `LD Vx, byte` (R150). -/
def execLdImm (x : Nibble) (nn : Byte) (s : State) : Result := .next (s.setV x nn).advance

/-- `ADD Vx, byte` (R151): wraps, `VF` is not written (decision D13). -/
def execAddImm (x : Nibble) (nn : Byte) (s : State) : Result := .next (s.setV x (s.getV x + nn)).advance

/-- `LD Vx, Vy` (R152). -/
def execLdReg (x y : Nibble) (s : State) : Result := .next (s.setV x (s.getV y)).advance

/-- `OR Vx, Vy` (R153). -/
def execOr (x y : Nibble) (s : State) : Result := .next (s.setV x (s.getV x ||| s.getV y)).advance

/-- `AND Vx, Vy` (R154). -/
def execAnd (x y : Nibble) (s : State) : Result := .next (s.setV x (s.getV x &&& s.getV y)).advance

/-- `XOR Vx, Vy` (R155). -/
def execXor (x y : Nibble) (s : State) : Result := .next (s.setV x (s.getV x ^^^ s.getV y)).advance

/-- `ADD Vx, Vy` (R156). -/
def execAddReg (x y : Nibble) (s : State) : Result :=
  .next (s.setResultFlag x (s.getV x + s.getV y) (carryFlag (s.getV x) (s.getV y))).advance

/-- `SUB Vx, Vy` (R157). -/
def execSub (x y : Nibble) (s : State) : Result :=
  .next (s.setResultFlag x (s.getV x - s.getV y) (noBorrowFlag (s.getV x) (s.getV y))).advance

/-- `SHR Vx` (R158): logical, by one. -/
def execShr (x y : Nibble) (s : State) : Result :=
  .next (s.setResultFlag x (s.getV (shiftReg x y) >>> 1) (shiftRightFlag (s.getV (shiftReg x y)))).advance

/-- `SUBN Vx, Vy` (R159). -/
def execSubn (x y : Nibble) (s : State) : Result :=
  .next (s.setResultFlag x (s.getV y - s.getV x) (noBorrowFlag (s.getV y) (s.getV x))).advance

/-- `SHL Vx` (R160): by one. -/
def execShl (x y : Nibble) (s : State) : Result :=
  .next (s.setResultFlag x (s.getV (shiftReg x y) <<< 1) (shiftLeftFlag (s.getV (shiftReg x y)))).advance

/-- `RND Vx, byte` (R161): a fresh draw masked with the immediate. -/
def execRnd (x : Nibble) (nn : Byte) (s : State) : Result :=
  .next ((s.setV x (randOperand s &&& nn)).setDraws (s.draws + 1)).advance

end Sys2Proof.Machine
end

