-- ==== Sys2Proof/Machine/Skip.lean ====
section
/-! DEFINITION. The six skips (42_skip.md): `(PC + 4) mod 65536` when the condition holds, else `(PC + 2) mod 65536`. -/

namespace Sys2Proof.Machine

/-- `SE Vx, byte` (R140). -/
def execSeImm (x : Nibble) (nn : Byte) (s : State) : Result := .next (s.skipIf (s.getV x == nn))

/-- `SNE Vx, byte` (R141). -/
def execSneImm (x : Nibble) (nn : Byte) (s : State) : Result := .next (s.skipIf (s.getV x != nn))

/-- `SE Vx, Vy` (R142). -/
def execSeReg (x y : Nibble) (s : State) : Result := .next (s.skipIf (s.getV x == s.getV y))

/-- `SNE Vx, Vy` (R143). -/
def execSneReg (x y : Nibble) (s : State) : Result := .next (s.skipIf (s.getV x != s.getV y))

/-- `SKP Vx` (R144). -/
def execSkp (x : Nibble) (s : State) : Result := .next (s.skipIf (keyOperandHeld s x))

/-- `SKNP Vx` (R145). -/
def execSknp (x : Nibble) (s : State) : Result := .next (s.skipIf (!keyOperandHeld s x))

end Sys2Proof.Machine
end

