-- ==== Sys2Proof/Machine/TimerKey.lean ====
section
/-! DEFINITION. The timer and keypad moves (46_timer_key.md). The timer decrement of the same step follows them (R115). -/

namespace Sys2Proof.Machine

/-- `LD Vx, DT` (R190). -/
def execLdVxDt (x : Nibble) (s : State) : Result := .next (s.setV x s.dt).advance

/-- `LD Vx, K` (R191): never waits. -/
def execLdVxK (x : Nibble) (s : State) : Result := .next (keyWait s x).advance

/-- `LD DT, Vx` (R192). -/
def execLdDtVx (x : Nibble) (s : State) : Result := .next (s.setDT (s.getV x)).advance

/-- `LD ST, Vx` (R193). -/
def execLdStVx (x : Nibble) (s : State) : Result := .next (s.setST (s.getV x)).advance

end Sys2Proof.Machine
end

