-- ==== Sys2Proof/Machine/Tick.lean ====
section
/-! DEFINITION. The step of 40_step_cycle.md (R118) and the tick around it of 60_exceptions.md (R212 to R214). -/

namespace Sys2Proof.Machine

/-- Input aggregation (R212): all presses, then all releases, both queues emptied. -/
def aggregate (s : State) : State :=
  ((s.setHeld (KeySet.release (KeySet.press s.held s.pressQ) s.relQ)).setPressQ []).setRelQ []

/-- One timer, less 1, saturating at 0 (R27). -/
def timerDown (t : Byte) : Byte := if t = 0 then 0 else t - 1

/-- The timer decrement of every step that did not fault (R115). -/
def decrementTimers (s : State) : State := (s.setDT (timerDown s.dt)).setST (timerDown s.st)

/-- Frame publication (R214): the slot gets a copy of the display, whatever it held. -/
def publish (s : State) : State := s.setFrame (some s.disp)

/-- `Step` of R118: fetch, decode, execute, decrement; the first fault met ends it (R116, R208). -/
def coreStep (s : State) : Result :=
  match fetch s with
  | .error f => .fault f
  | .ok w =>
    match decode w with
    | .error _ => .fault (.malformedInstruction w)
    | .ok i =>
      match exec i s with
      | .next t => .next (decrementTimers t)
      | .fault f => .fault f
      | .refused r => .refused r

/-- One tick (R213): aggregate, one step, publish. A faulting tick publishes nothing (R206). A halted core has no tick: it answers the fault
it halted with, for ever (R206, R207). -/
def tick (s : State) : Result :=
  match s.status with
  | .halted f => .fault f
  | .running =>
    match coreStep (aggregate s) with
    | .next t => .next (publish t)
    | .fault f => .fault f
    | .refused r => .refused r

end Sys2Proof.Machine
end

