-- ==== Sys2Proof/Machine/Step.lean ====
section
/-! DEFINITION. The core agent's move (60_exceptions.md rule R215) under the host's fixed names. -/

namespace Sys2Proof.Machine

/-- One step of the machine is one tick (R213). -/
def step (s : State) : Host.Outcome State Fault Refusal := tick s

/-- The state with a table row's instruction word where the next step fetches: it stands for loading a program image (log 5). -/
def State.withFetchWord (s : State) (nbits w : Nat) : State := s.placeWord (tableWord nbits w)

end Sys2Proof.Machine
end

