-- ==== Sys2Proof/Machine/Ports.lean ====
section
/-! DEFINITION. The ports of the core (60_exceptions.md rule R217) and every interleaving of the two agents' moves (R215): reset with a program
image, tick, key events, taking a frame, the status output. -/

namespace Sys2Proof.Machine

/-- The largest program image, `MEM_SIZE - PROG_BASE` = 3583 bytes (70_reset_and_hazards.md rule R256). -/
def maxImage : Nat := Config.memSize - Config.progBase

/-- The `reset` port (R250, R251): the machine created anew with an image "loaded verbatim"; an image that does not fit has no
initial state (R256, decision D28). `draws` is how many random bytes were drawn before: reset discards every component of the spec's
state, but the source of random bytes lies outside the machine (R161) and is not rewound. -/
def resetWith (rom : List Byte) (draws : Nat) : Option State :=
  if rom.length ≤ maxImage then some ((State.reset.setMem (installBytes State.reset.mem Config.progBase rom)).setDraws draws) else none

/-- The host move `HostKeys(pressed, released)` (R216). -/
def hostKeys (pressed released : List KeyId) (s : State) : State :=
  (s.setPressQ (s.pressQ ++ pressed)).setRelQ (s.relQ ++ released)

/-- The host move `HostTakeFrame()` (R218): what the slot held, and the state with it empty. -/
def hostTakeFrame (s : State) : Option Frame × State := (s.frame, s.setFrame none)

/-- The fault codes of R200. -/
def faultCode : Fault → Nat
  | .malformedInstruction _ => 1
  | .memoryProtectionViolation _ => 2
  | .stackUnderflow _ => 3
  | .memoryOutOfRange _ => 4

/-- The `info` a fault records (R200). -/
def faultInfo : Fault → Nat
  | .malformedInstruction w => w.toNat
  | .memoryProtectionViolation a => a
  | .stackUnderflow pc => pc.toNat
  | .memoryOutOfRange a => a

/-- The `status` port (R217): nothing while running, else the code and `info`. -/
def statusPort (s : State) : Option (Nat × Nat) :=
  match s.status with
  | .running => none
  | .halted f => some (faultCode f, faultInfo f)

/-- The core's move with the fault latched in `STATUS` (R117, R206): a tick that faults leaves a halted state, a halted core stays as it is. -/
def coreMove (s : State) : State :=
  match s.status with
  | .halted _ => s
  | .running =>
    match step s with
    | .next t => t
    | .fault f => s.haltWith f
    | .refused _ => s

/-- The moves of the two agents (R213, R216, R218, R250). -/
inductive Move where
  | reset (rom : List Byte)
  | tick
  | keys (pressed released : List KeyId)
  | takeFrame
  deriving DecidableEq, Repr

/-- One move; only a reset with an image that does not fit has no state after it. -/
def applyMove (m : Move) (s : State) : Option State :=
  match m with
  | .reset rom => resetWith rom s.draws
  | .tick => some (coreMove s)
  | .keys pressed released => some (hostKeys pressed released s)
  | .takeFrame => some (hostTakeFrame s).2

/-- Any interleaving of moves (R215). -/
def runMoves : List Move → State → Option State
  | [], s => some s
  | m :: rest, s =>
    match applyMove m s with
    | some t => runMoves rest t
    | none => none

end Sys2Proof.Machine
end

