-- ==== Sys2Proof/Safety.lean ====
section
/-! DEFINITION. What claims are stated in: a safe run, what a step may change, and the invariant of the core. -/

namespace Sys2Proof.Machine

/-- `k` ticks from `s` raise no fault (60_exceptions.md rule R207: a claim about a program takes "no fault raised" as a premise or proves it). -/
def RunsSafely (k : Nat) (s : State) : Prop := ∃ t, Host.Core.run Sys2Proof.core k s = .next t

/-- What an instruction may change beside the program counter; everything not named here is unchanged. -/
structure Footprint where
  regs : List Nibble := []
  bytes : List Nat := []
  i : Bool := false
  dt : Bool := false
  st : Bool := false
  stack : Bool := false
  disp : Bool := false
  draws : Bool := false
  deriving DecidableEq, Repr

/-- `t` is `s` but for `PC` and what the footprint names: registers, bytes of memory, `I`, `DT`, `ST`, `STACK`, `DISP`, the count of draws.
The keys, the queues, the frame slot and the run status are in no instruction's footprint (10_state.md rules R34 to R37). -/
structure Unchanged (p : Footprint) (s t : State) : Prop where
  regs : ∀ r : Nibble, r ∉ p.regs → t.getV r = s.getV r
  bytes : ∀ a : Nat, a ∉ p.bytes → t.mem.get a = s.mem.get a
  i : p.i = false → t.i = s.i
  dt : p.dt = false → t.dt = s.dt
  st : p.st = false → t.st = s.st
  stack : p.stack = false → t.stack = s.stack
  disp : p.disp = false → t.disp = s.disp
  draws : p.draws = false → t.draws = s.draws
  held : t.held = s.held
  pressQ : t.pressQ = s.pressQ
  relQ : t.relQ = s.relQ
  frame : t.frame = s.frame
  status : t.status = s.status

/-- No byte below the threshold is listed, so each reads as reset left it (20_memory.md rules R54, R61). -/
abbrev Memory.protectedIntact (m : Memory) : Prop := ∀ c ∈ m, Config.progBase ≤ c.1

/-- The invariant of the core: memory in its canonical form, the protected region as reset left it, and the bounds of 10_state.md rule R30 on
the program counter and the return addresses. -/
abbrev State.Inv (s : State) : Prop :=
  s.mem.wf ∧ s.mem.protectedIntact ∧ s.pc.toNat ≤ 0x10FE ∧ ∀ r ∈ s.stack, r.toNat ≤ 4095

/-- The machine runs, and the two bytes at the program counter exist and decode to `i`. -/
abbrev Fetches (s : State) (i : Instr) : Prop :=
  s.status = .running ∧ s.pc.toNat < 4094 ∧ decodeBytes [s.mem.get s.pc.toNat, s.mem.get (s.pc.toNat + 1)] = .ok (i, [])

/-- The illegal words of 30_encoding.md rule R93, sets (a) to (d), as numbers. -/
abbrev IllegalWord (w : Nat) : Prop :=
  (w / 4096 = 0x8 ∧ w % 16 ∈ [0x8, 0x9, 0xA, 0xB, 0xC, 0xD, 0xF]) ∨
  (w / 4096 = 0x9 ∧ w % 16 ≠ 0) ∨
  (w / 4096 = 0xE ∧ w % 256 ∉ [0x9E, 0xA1]) ∨
  (w / 4096 = 0xF ∧ w % 256 ∉ [0x07, 0x0A, 0x15, 0x18, 0x1E, 0x29, 0x33, 0x55, 0x65])

/-- A set bit of the sprite of `DRW Vx, Vy, n` lies on the cell `(px, py)` (45_display.md rule R181): bit `7 - col` of the byte at `I + row`, at
column `V[x] + col` and row `V[y] + row`, each modulo the display's size. -/
abbrev SpriteCovers (s : State) (x y n : Nibble) (px py : Nat) : Prop :=
  ∃ row, row < n.toNat ∧ ∃ col, col < 8 ∧ (s.mem.get (effAddr s row)).getLsbD (7 - col) = true ∧
    ((s.getV x).toNat + col) % 64 = px ∧ ((s.getV y).toNat + row) % 32 = py

/-- A change of the state after an outcome, if there is one. -/
def mapNext (g : State → State) : Result → Result
  | .next t => .next (g t)
  | .fault f => .fault f
  | .refused r => .refused r

/-- The six instructions that write `VF` as a side effect (10_state.md rule R23). -/
abbrev WritesFlag (i : Instr) : Prop :=
  ∃ x y n, i = .addReg x y ∨ i = .sub x y ∨ i = .shr x y ∨ i = .subn x y ∨ i = .shl x y ∨ i = .drw x y n

/-- `r` is a destination register of `i`, by the rows "write `V[X]`" and "write `V[0]` to `V[X]`" of 10_state.md rule R21. -/
abbrev IsDestination (i : Instr) (r : Nibble) : Prop :=
  ∃ y nn, i = .ldImm r nn ∨ i = .addImm r nn ∨ i = .ldReg r y ∨ i = .or r y ∨ i = .and r y ∨ i = .xor r y ∨ i = .addReg r y ∨
    i = .sub r y ∨ i = .shr r y ∨ i = .subn r y ∨ i = .shl r y ∨ i = .rnd r nn ∨ i = .ldVxDt r ∨ i = .ldVxK r ∨
    ∃ x : Nibble, r.toNat ≤ x.toNat ∧ i = .loadRegs x

end Sys2Proof.Machine
end

