-- ==== Sys2Proof/Certificates/Slice0/Obligations.lean ====
section
/-! DEFINITION. The statements about the core, for the provers. Each docstring names the rules of spec/ it formalises; "D<n>" is a decision of
spec/92_eei_decisions.md that a clause rests on. A statement of an instruction's result says that `exec` answers a next state, what that state
holds, and through `Unchanged` that everything else is as it was; where it gives the instruction's word, it says what that word decodes to. -/

open Sys2Proof Sys2Proof.Machine

/-! Encoding -/

/-- R85, R90: decoding the word of a well-formed operation gives the operation back. (Families and selectors: decision D1.) -/
def Obligations.DecodeUndoesEncode : Prop :=
  ∀ i : Instr, i.wellFormed = true → decode (encode i) = .ok i

/-- R90, R94: a word that decodes is the word of its operation, but for the low nibble of family 5, which is ignored and encoded as 0.
(Families and selectors: decision D1.) -/
def Obligations.EncodeUndoesDecode : Prop :=
  ∀ (w : Word) (i : Instr), decode w = .ok i →
    i.wellFormed = true ∧
      (encode i).toNat = if w.toNat / 4096 = 5 then w.toNat / 16 * 16 else w.toNat

/-- R86, R93: the words of the four illegal sets fail with `MalformedInstruction(w)`, every other word decodes. (Families and selectors:
decision D1.) -/
def Obligations.IllegalWordsFailAndOnlyThey : Prop :=
  ∀ w : Word, (IllegalWord w.toNat → decode w = .error (.malformedInstruction w)) ∧
    (¬IllegalWord w.toNat → ∃ i, decode w = .ok i)

/-- R87: family 0 never fails; two words are `CLS` and `RET`, every other one is `SYS` with its low 12 bits. -/
def Obligations.FamilyZeroAlwaysDecodes : Prop :=
  ∀ w : Word, w.toNat / 4096 = 0 →
    decode w = .ok (if w.toNat = 0x00E0 then .cls else if w.toNat = 0x00EE then .ret else .sys (BitVec.ofNat 12 w.toNat))

/-- R90 at words written out bit by bit (95_test_vectors.md S1, S2, E7 to E45), one family or selector each. (Families and selectors: decision
D1.) -/
def Obligations.SampleWordsDecode : Prop :=
  decode 0b0000000011100000 = .ok .cls ∧ decode 0b0000000011101110 = .ok .ret ∧ decode 0b0001101010111100 = .ok (.jp 0xABC) ∧
  decode 0b0101000100101111 = .ok (.seReg 1 2) ∧ decode 0b1000101010110101 = .ok (.sub 10 11) ∧
  decode 0b1101011110100101 = .ok (.drw 7 10 5) ∧ decode 0b1110001110100001 = .ok (.sknp 3) ∧
  decode 0b1111010100110011 = .ok (.ldB 5) ∧ decode 0b1001101010110001 = .error (.malformedInstruction 0x9AB1)

/-! The step and the tick -/

/-- R112, R114, R118, R213: when the bytes at the program counter decode to `i`, a step is `exec i` after input aggregation, and on success
the timers are decremented and the frame published. -/
def Obligations.StepExecutesTheDecodedInstruction : Prop :=
  ∀ (s : State) (i : Instr), Fetches s i →
    step s = match exec i (aggregate s) with
      | .next t => .next (publish (decrementTimers t))
      | .fault f => .fault f
      | .refused r => .refused r

/-- R110: the instruction word is the two bytes at the program counter, big-endian; from 4094 on the fetch raises `MemoryOutOfRange(PC)`, and
the step of a running machine with it (the memory size is decision D4, the fault decision D17). -/
def Obligations.FetchReadsTwoBytesBigEndian : Prop :=
  ∀ s : State,
    (s.pc.toNat < 4094 → ∃ w, fetch s = .ok w ∧ w.toNat = (s.mem.get s.pc.toNat).toNat * 256 + (s.mem.get (s.pc.toNat + 1)).toNat) ∧
    (4094 ≤ s.pc.toNat → fetch s = .error (.memoryOutOfRange s.pc.toNat) ∧
      (s.status = .running → step s = .fault (.memoryOutOfRange s.pc.toNat)))

/-- R93, R111, R201: a step whose fetched word is in the illegal set raises `MalformedInstruction` with that word. (Families and selectors:
decision D1.) -/
def Obligations.IllegalWordStopsTheStep : Prop :=
  ∀ s : State, s.status = .running → s.pc.toNat < 4094 →
    IllegalWord ((s.mem.get s.pc.toNat).toNat * 256 + (s.mem.get (s.pc.toNat + 1)).toNat) →
    step s = .fault (.malformedInstruction
      (BitVec.ofNat 16 ((s.mem.get s.pc.toNat).toNat * 256 + (s.mem.get (s.pc.toNat + 1)).toNat)))

/-- R212 (presses before releases is decision D23): a tick leaves held exactly the keys that were held or pressed and not released, and both
queues empty. -/
def Obligations.TickFoldsKeyEvents : Prop :=
  ∀ s t : State, step s = .next t →
    (∀ k : KeyId, t.held[k.val] = true ↔ (s.held[k.val] = true ∨ k ∈ s.pressQ) ∧ k ∉ s.relQ) ∧ t.pressQ = [] ∧ t.relQ = []

/-- R214 (the size of the display, 64 by 32, is decision D5; the order of the cells decision D8): after every step that did not fault the slot
holds a copy of the display, whatever it held before; in the sequence the host sees, cell `(x, y)` is at index `y * WIDTH + x` and there
are `WIDTH * HEIGHT` cells. -/
def Obligations.TickPublishesTheDisplay : Prop :=
  ∀ s t : State, step s = .next t →
    t.frame = some t.disp ∧ (Display.cells t.disp).length = 2048 ∧
      ∀ x y : Nat, x < 64 → y < 32 → (Display.cells t.disp)[y * 64 + x]? = some (Display.cell t.disp x y)

/-- R27, R115: both timers are decremented by 1, saturating at 0, exactly once in a step, from the values its instruction left. -/
def Obligations.TickDecrementsTimersOnce : Prop :=
  ∀ s t : State, step s = .next t →
    ∃ i u, Fetches s i ∧ exec i (aggregate s) = .next u ∧ t.dt.toNat = u.dt.toNat - 1 ∧ t.st.toNat = u.st.toNat - 1

/-- R25, R26, R27, R194: a step of any instruction but the two that set a timer takes 1 off each timer, never below 0. -/
def Obligations.UnsetTimersFallByOne : Prop :=
  ∀ (s t : State) (i : Instr), Fetches s i → (∀ x, i ≠ .ldDtVx x) → (∀ x, i ≠ .ldStVx x) → step s = .next t →
    t.dt.toNat = s.dt.toNat - 1 ∧ t.st.toNat = s.st.toNat - 1

/-- R206, R207 (decision D19; log 1 says how the model latches a fault): a halted machine answers its fault to every tick, and no sequence of
moves without a reset changes its status. -/
def Obligations.HaltedMachineStaysHalted : Prop :=
  ∀ (s : State) (f : Fault), s.status = .halted f →
    step s = .fault f ∧
      ∀ (ms : List Move) (t : State), (∀ rom, Move.reset rom ∉ ms) → runMoves ms s = some t → t.status = .halted f

/-- R206 (decision D19; log 1): a faulting tick leaves the status halted with the fault and the frame slot as it was, and the status port
shows its code and `info`. -/
def Obligations.FaultingTickLatchesStatus : Prop :=
  ∀ (s : State) (f : Fault), s.status = .running → step s = .fault f →
    (coreMove s).status = .halted f ∧ (coreMove s).frame = s.frame ∧ statusPort (coreMove s) = some (faultCode f, faultInfo f)

/-! Invariants -/

/-- R30, R50, R54, R61 with the model's canonical memory (log 3; threshold and memory size: decisions D3, D4): every step keeps memory
canonical, the protected region as reset left it, the program counter at most 0x10FE and every return address at most 4095. -/
def Obligations.StepKeepsInvariant : Prop :=
  ∀ s t : State, s.Inv → step s = .next t → t.Inv

/-- R251, R256 with the model's canonical memory (log 3; decisions D3, D4, D9, D10, D28): reset meets the invariant, with the empty image and
with every image that fits. -/
def Obligations.ResetMeetsInvariant : Prop :=
  State.reset.Inv ∧ ∀ (rom : List Byte) (n : Nat) (s : State), resetWith rom n = some s → s.Inv

/-- R30, R54, R215 with the model's canonical memory (log 3; threshold and memory size: decisions D3, D4): along every interleaving of ticks,
key events, frame takes and resets, a machine that runs meets the invariant of `StepKeepsInvariant` if it did at the start. A halted state
is exempt, since everything in it but the status and the frame is unspecified (decision D19, log 1). -/
def Obligations.EveryInterleavingKeepsInvariant : Prop :=
  ∀ (ms : List Move) (s t : State), (s.status = .running → s.Inv) → runMoves ms s = some t → t.status = .running → t.Inv

/-- R54, R61: no step, from any state, changes a byte below the program-offset threshold. -/
def Obligations.StepNeverWritesProtectedMemory : Prop :=
  ∀ s t : State, step s = .next t → ∀ a, a < 512 → t.mem.get a = s.mem.get a

/-- R40, R251, R256 (decisions D3, D6, D9, D10, D24, D28): what reset with a program image leaves, and that an image of more than 3583 bytes
has no initial state. The count of draws, the model's own, goes on from where it was (log 4). -/
def Obligations.ResetLeavesTheTabledState : Prop :=
  ∀ (rom : List Byte) (n : Nat),
    (3583 < rom.length → resetWith rom n = none) ∧
    (rom.length ≤ 3583 → ∃ s, resetWith rom n = some s ∧ s.pc.toNat = 0x200 ∧ s.stack = [] ∧ s.i = 0 ∧ s.dt = 0 ∧ s.st = 0 ∧
      s.status = .running ∧ s.frame = none ∧ s.pressQ = [] ∧ s.relQ = [] ∧ s.draws = n ∧
      (∀ r : Nibble, s.getV r = 0) ∧ (∀ k : KeyId, s.held[k.val] = false) ∧ (∀ x y, Display.cell s.disp x y = false) ∧
      (∀ a, a < 80 → s.mem.get a = Config.glyphRom[a]?.getD 0) ∧
      (∀ j, j < rom.length → s.mem.get (0x200 + j) = rom[j]?.getD 0) ∧
      ∀ a, 80 ≤ a → (a < 0x200 ∨ 0x200 + rom.length ≤ a) → s.mem.get a = 0)

/-! Memory -/

/-- R53: `MemRead(a, n)` for both widths, with its fault and its big-endian value. -/
def Obligations.MemReadReturnsOrFaults : Prop :=
  ∀ (s : State) (a : Nat),
    memRead s a = (if 4095 ≤ a then .error (.memoryOutOfRange a) else .ok (s.mem.get a)) ∧
    (4095 ≤ a + 1 → memReadWord s a = .error (.memoryOutOfRange a)) ∧
    (a + 1 < 4095 → ∃ w, memReadWord s a = .ok w ∧ w.toNat = (s.mem.get a).toNat * 256 + (s.mem.get (a + 1)).toNat)

/-- R54, R55 (the threshold 512 is decision D3, the memory size 4095 decision D4, the fault outside memory decision D17): `MemWrite(a, 1, v)`
below the threshold and outside memory faults with the address; elsewhere it writes that byte and nothing else. -/
def Obligations.MemWriteWritesOrFaults : Prop :=
  ∀ (s : State) (a : Nat) (v : Byte),
    (a < 512 → memWrite s a v = .error (.memoryProtectionViolation a)) ∧
    (4095 ≤ a → memWrite s a v = .error (.memoryOutOfRange a)) ∧
    (512 ≤ a → a < 4095 → ∃ t, memWrite s a v = .ok t ∧ t.mem.get a = v ∧ t.pc = s.pc ∧ Unchanged { bytes := [a] } s t)

/-- R65, R174: a block store to the bytes of the very next instruction is what the next fetch reads. -/
def Obligations.NextFetchSeesTheStore : Prop :=
  ∀ (x : Nibble) (s t : State), 1 ≤ x.toNat → s.i = s.pc + 2 → exec (.storeRegs x) s = .next t →
    ∃ w, fetch t = .ok w ∧ w.toNat = (s.getV 0).toNat * 256 + (s.getV 1).toNat

/-! Rules of the whole machine -/

/-- R50, R52: no instruction but `LD B, Vx` and `LD [I], Vx` changes a byte of memory. -/
def Obligations.OnlyStoresWriteMemory : Prop :=
  ∀ (i : Instr) (s t : State), (∀ x, i ≠ .ldB x) → (∀ x, i ≠ .storeRegs x) → exec i s = .next t → ∀ a, t.mem.get a = s.mem.get a

/-- R32, R33: no instruction but `CLS` and `DRW` changes the display. -/
def Obligations.OnlyClearAndDrawWriteDisplay : Prop :=
  ∀ (i : Instr) (s t : State), i ≠ .cls → (∀ x y n, i ≠ .drw x y n) → exec i s = .next t → t.disp = s.disp

/-- R31: no instruction but `CALL` and `RET` changes the call stack. -/
def Obligations.OnlyCallAndReturnWriteStack : Prop :=
  ∀ (i : Instr) (s t : State), (∀ nnn, i ≠ .call nnn) → i ≠ .ret → exec i s = .next t → t.stack = s.stack

/-- R24 (that the block transfers leave `I` alone is decision D14): no instruction but `LD I, addr`, `ADD I, Vx` and `LD F, Vx` changes the
address register. -/
def Obligations.OnlyThreeInstructionsWriteAddressRegister : Prop :=
  ∀ (i : Instr) (s t : State), (∀ nnn, i ≠ .ldI nnn) → (∀ x, i ≠ .addI x) → (∀ x, i ≠ .ldF x) → exec i s = .next t → t.i = s.i

/-- R21, R23 (decision D13): a register changes only if it is a destination of the instruction, or if it is `VF` and the instruction is one of
the six that write the flag. -/
def Obligations.RegistersChangeOnlyAsTabled : Prop :=
  ∀ (i : Instr) (s t : State) (r : Nibble), exec i s = .next t → ¬IsDestination i r → ¬(r = 15 ∧ WritesFlag i) → t.getV r = s.getV r

/-- R34 to R37: no instruction changes the held keys, the event queues, the frame slot or the run status. -/
def Obligations.ExecLeavesHostSideAlone : Prop :=
  ∀ (i : Instr) (s t : State), exec i s = .next t →
    t.held = s.held ∧ t.pressQ = s.pressQ ∧ t.relQ = s.relQ ∧ t.frame = s.frame ∧ t.status = s.status

/-- R200, R202 to R204: no instruction is refused, and a fault during execution has one of the listed causes, with its `info`. -/
def Obligations.ExecuteFaultsHaveListedCauses : Prop :=
  ∀ (i : Instr) (s : State), (∀ r, exec i s ≠ .refused r) ∧ ∀ f, exec i s = .fault f →
    (i = .ret ∧ s.stack = [] ∧ f = .stackUnderflow s.pc) ∨
    ((∃ x, i = .ldB x ∨ i = .storeRegs x) ∧ s.i.toNat < 512 ∧ f = .memoryProtectionViolation s.i.toNat) ∨
    ((∃ x y n, i = .ldB x ∨ i = .storeRegs x ∨ i = .loadRegs x ∨ i = .drw x y n) ∧
      f = .memoryOutOfRange (max s.i.toNat 4095))

/-- R117: the held keys are read only by `SKP`, `SKNP` and `LD Vx, K`, the random draw only by `RND`: another instruction does the same
whatever they are. -/
def Obligations.OnlyKeyAndRandomInstructionsReadInputs : Prop :=
  ∀ (i : Instr) (s : State),
    ((∀ x, i ≠ .skp x) → (∀ x, i ≠ .sknp x) → (∀ x, i ≠ .ldVxK x) →
      ∀ h : KeySet, exec i (s.setHeld h) = mapNext (fun t => t.setHeld h) (exec i s)) ∧
    ((∀ x nn, i ≠ .rnd x nn) → ∀ n : Nat, exec i (s.setDraws n) = mapNext (fun t => t.setDraws n) (exec i s))

/-! Control flow -/

/-- R130: every word of family 0 but two is a `SYS`, which only advances the program counter. (`VF` unchanged: decision D13, log 9. `PC`
modulo 65536: decision D21, log 15.) -/
def Obligations.SysOnlyAdvances : Prop :=
  ∀ (nnn : Addr) (s : State),
    (nnn.toNat ≠ 0x0E0 → nnn.toNat ≠ 0x0EE → decode (BitVec.ofNat 16 nnn.toNat) = .ok (.sys nnn)) ∧
    ∃ t, exec (.sys nnn) s = .next t ∧ t.pc.toNat = (s.pc.toNat + 2) % 65536 ∧ Unchanged {} s t

/-- R131: `RET` pops the last return address into the program counter, with no default advance; on the empty stack it raises
`StackUnderflow(PC)`. (`VF` unchanged: decision D13, log 9.) -/
def Obligations.ReturnPopsIntoProgramCounter : Prop :=
  decode 0x00EE = .ok .ret ∧ ∀ s : State,
    (s.stack = [] → exec .ret s = .fault (.stackUnderflow s.pc)) ∧
    ∀ (rest : List Word) (a : Word), s.stack = rest ++ [a] →
      ∃ t, exec .ret s = .next t ∧ t.pc = a ∧ t.stack = rest ∧ Unchanged { stack := true } s t

/-- R132, R134: `JP addr` goes to `NNN`; `JP V0, addr` goes to `NNN` plus `V[0]`, a 16-bit sum that is not reduced to 12 bits. The words are
those of R90, whose families and selectors are decision D1. (`VF` unchanged: decision D13, log 9. `PC` modulo 65536: decision D21, log
15.) -/
def Obligations.JumpsSetProgramCounter : Prop :=
  ∀ (nnn : Addr) (s : State),
    (decode (BitVec.ofNat 16 (0x1000 + nnn.toNat)) = .ok (.jp nnn) ∧
      ∃ t, exec (.jp nnn) s = .next t ∧ t.pc.toNat = nnn.toNat ∧ Unchanged {} s t) ∧
    (decode (BitVec.ofNat 16 (0xB000 + nnn.toNat)) = .ok (.jpV0 nnn) ∧
      ∃ t, exec (.jpV0 nnn) s = .next t ∧ t.pc.toNat = (nnn.toNat + (s.getV 0).toNat) % 65536 ∧ Unchanged {} s t)

/-- R133: `CALL addr` appends the address of the next instruction to the stack and goes to `NNN`, at any depth. The words are those of R90,
whose families and selectors are decision D1. (`VF` unchanged: decision D13, log 9. `PC` modulo 65536: decision D21, log 15.) -/
def Obligations.CallPushesReturnAddress : Prop :=
  ∀ (nnn : Addr) (s : State), decode (BitVec.ofNat 16 (0x2000 + nnn.toNat)) = .ok (.call nnn) ∧
    ∃ t ret, exec (.call nnn) s = .next t ∧ t.pc.toNat = nnn.toNat ∧ t.stack = s.stack ++ [ret] ∧
      ret.toNat = (s.pc.toNat + 2) % 65536 ∧ Unchanged { stack := true } s t

/-- R131, R133: a call followed at once by a return goes to the instruction after the call, with the stack and everything else as they were.
(`VF` unchanged: decision D13, log 9. `PC` modulo 65536: decision D21, log 15.) -/
def Obligations.CallThenReturnRestores : Prop :=
  ∀ (nnn : Addr) (s t : State), exec (.call nnn) s = .next t →
    ∃ u, exec .ret t = .next u ∧ u.pc.toNat = (s.pc.toNat + 2) % 65536 ∧ u.stack = s.stack ∧ Unchanged { stack := true } s u

/-! Skips -/

/-- R140, R141: the two skips that compare a register with an immediate, by 4 when the condition holds, else by 2. The words are those of R90,
whose families and selectors are decision D1. (`VF` unchanged: decision D13, log 9. `PC` modulo 65536: decision D21, log 15.) -/
def Obligations.ImmediateSkips : Prop :=
  ∀ (x : Nibble) (nn : Byte) (s : State),
    (decode (BitVec.ofNat 16 (0x3000 + x.toNat * 256 + nn.toNat)) = .ok (.seImm x nn) ∧
      ∃ t, exec (.seImm x nn) s = .next t ∧ t.pc.toNat = (s.pc.toNat + if s.getV x = nn then 4 else 2) % 65536 ∧ Unchanged {} s t) ∧
    (decode (BitVec.ofNat 16 (0x4000 + x.toNat * 256 + nn.toNat)) = .ok (.sneImm x nn) ∧
      ∃ t, exec (.sneImm x nn) s = .next t ∧ t.pc.toNat = (s.pc.toNat + if s.getV x = nn then 2 else 4) % 65536 ∧ Unchanged {} s t)

/-- R142, R143: the two skips that compare two registers; the low nibble of family 5 is ignored. The words are those of R90, whose families
and selectors are decision D1. (`VF` unchanged: decision D13, log 9. `PC` modulo 65536: decision D21, log 15.) -/
def Obligations.RegisterSkips : Prop :=
  ∀ (x y : Nibble) (s : State),
    ((∀ n : Nibble, decode (BitVec.ofNat 16 (0x5000 + x.toNat * 256 + y.toNat * 16 + n.toNat)) = .ok (.seReg x y)) ∧
      ∃ t, exec (.seReg x y) s = .next t ∧ t.pc.toNat = (s.pc.toNat + if s.getV x = s.getV y then 4 else 2) % 65536 ∧ Unchanged {} s t) ∧
    (decode (BitVec.ofNat 16 (0x9000 + x.toNat * 256 + y.toNat * 16)) = .ok (.sneReg x y) ∧
      ∃ t, exec (.sneReg x y) s = .next t ∧ t.pc.toNat = (s.pc.toNat + if s.getV x = s.getV y then 2 else 4) % 65536 ∧ Unchanged {} s t)

/-- R144, R145 (that a value from 16 on is never held is decision D16): the two skips that test whether the key in `V[X]` is held. The words
are those of R90, whose families and selectors are decision D1. (`VF` unchanged: decision D13, log 9. `PC` modulo 65536: decision D21, log
15.) -/
def Obligations.KeySkips : Prop :=
  ∀ (x : Nibble) (s : State),
    (decode (BitVec.ofNat 16 (0xE09E + x.toNat * 256)) = .ok (.skp x) ∧
      ∃ t, exec (.skp x) s = .next t ∧ Unchanged {} s t ∧
        ((∃ k : KeyId, (s.getV x).toNat = k.val ∧ s.held[k.val] = true) → t.pc.toNat = (s.pc.toNat + 4) % 65536) ∧
        ((∀ k : KeyId, (s.getV x).toNat = k.val → s.held[k.val] = false) → t.pc.toNat = (s.pc.toNat + 2) % 65536)) ∧
    (decode (BitVec.ofNat 16 (0xE0A1 + x.toNat * 256)) = .ok (.sknp x) ∧
      ∃ t, exec (.sknp x) s = .next t ∧ Unchanged {} s t ∧
        ((∃ k : KeyId, (s.getV x).toNat = k.val ∧ s.held[k.val] = true) → t.pc.toNat = (s.pc.toNat + 2) % 65536) ∧
        ((∀ k : KeyId, (s.getV x).toNat = k.val → s.held[k.val] = false) → t.pc.toNat = (s.pc.toNat + 4) % 65536))

/-! Load, arithmetic, logic, shift, random -/

/-- R150, R152: loading an immediate and copying a register. The words are those of R90, whose families and selectors are decision D1. (`VF`
unchanged: decision D13, log 9. `PC` modulo 65536: decision D21, log 15.) -/
def Obligations.LoadImmediateAndCopy : Prop :=
  ∀ (x y : Nibble) (nn : Byte) (s : State),
    (decode (BitVec.ofNat 16 (0x6000 + x.toNat * 256 + nn.toNat)) = .ok (.ldImm x nn) ∧
      ∃ t, exec (.ldImm x nn) s = .next t ∧ t.getV x = nn ∧ t.pc.toNat = (s.pc.toNat + 2) % 65536 ∧ Unchanged { regs := [x] } s t) ∧
    (decode (BitVec.ofNat 16 (0x8000 + x.toNat * 256 + y.toNat * 16)) = .ok (.ldReg x y) ∧
      ∃ t, exec (.ldReg x y) s = .next t ∧ t.getV x = s.getV y ∧ t.pc.toNat = (s.pc.toNat + 2) % 65536 ∧ Unchanged { regs := [x] } s t)

/-- R151 (that `VF` is not written is decision D13): adding an immediate wraps modulo 256. The words are those of R90, whose families and
selectors are decision D1. (`PC` modulo 65536: decision D21, log 15.) -/
def Obligations.AddImmediateWraps : Prop :=
  ∀ (x : Nibble) (nn : Byte) (s : State), decode (BitVec.ofNat 16 (0x7000 + x.toNat * 256 + nn.toNat)) = .ok (.addImm x nn) ∧
    ∃ t, exec (.addImm x nn) s = .next t ∧ (t.getV x).toNat = ((s.getV x).toNat + nn.toNat) % 256 ∧
      t.pc.toNat = (s.pc.toNat + 2) % 65536 ∧ Unchanged { regs := [x] } s t

/-- R153 to R155 (that `VF` is not written is decision D13): the three bitwise operations, bit by bit. The words are those of R90, whose
families and selectors are decision D1. (`PC` modulo 65536: decision D21, log 15.) -/
def Obligations.BitwiseOperations : Prop :=
  ∀ (x y : Nibble) (s : State),
    (decode (BitVec.ofNat 16 (0x8001 + x.toNat * 256 + y.toNat * 16)) = .ok (.or x y) ∧
      ∃ t, exec (.or x y) s = .next t ∧ (∀ k, (t.getV x).getLsbD k = ((s.getV x).getLsbD k || (s.getV y).getLsbD k)) ∧
        t.pc.toNat = (s.pc.toNat + 2) % 65536 ∧ Unchanged { regs := [x] } s t) ∧
    (decode (BitVec.ofNat 16 (0x8002 + x.toNat * 256 + y.toNat * 16)) = .ok (.and x y) ∧
      ∃ t, exec (.and x y) s = .next t ∧ (∀ k, (t.getV x).getLsbD k = ((s.getV x).getLsbD k && (s.getV y).getLsbD k)) ∧
        t.pc.toNat = (s.pc.toNat + 2) % 65536 ∧ Unchanged { regs := [x] } s t) ∧
    (decode (BitVec.ofNat 16 (0x8003 + x.toNat * 256 + y.toNat * 16)) = .ok (.xor x y) ∧
      ∃ t, exec (.xor x y) s = .next t ∧ (∀ k, (t.getV x).getLsbD k = ((s.getV x).getLsbD k ^^ (s.getV y).getLsbD k)) ∧
        t.pc.toNat = (s.pc.toNat + 2) % 65536 ∧ Unchanged { regs := [x] } s t)

/-- R156 (that the flag is written last, so that `X = 15` keeps it, is decision D12): the wrapped sum, and 1 in `VF` exactly on a carry. The
words are those of R90, whose families and selectors are decision D1. (`PC` modulo 65536: decision D21, log 15.) -/
def Obligations.AddSetsCarry : Prop :=
  ∀ (x y : Nibble) (s : State), decode (BitVec.ofNat 16 (0x8004 + x.toNat * 256 + y.toNat * 16)) = .ok (.addReg x y) ∧
    ∃ t, exec (.addReg x y) s = .next t ∧
      (x ≠ 15 → (t.getV x).toNat = ((s.getV x).toNat + (s.getV y).toNat) % 256) ∧
      (t.getV 15).toNat = (if 256 ≤ (s.getV x).toNat + (s.getV y).toNat then 1 else 0) ∧
      t.pc.toNat = (s.pc.toNat + 2) % 65536 ∧ Unchanged { regs := [x, 15] } s t

/-- R157, R159 (flag last: decision D12): the wrapped difference, and 1 in `VF` exactly when there is no borrow. The words are those of R90,
whose families and selectors are decision D1. (`PC` modulo 65536: decision D21, log 15.) -/
def Obligations.SubtractionsSetNoBorrow : Prop :=
  ∀ (x y : Nibble) (s : State),
    (decode (BitVec.ofNat 16 (0x8005 + x.toNat * 256 + y.toNat * 16)) = .ok (.sub x y) ∧
      ∃ t, exec (.sub x y) s = .next t ∧
        (x ≠ 15 → ((t.getV x).toNat : Int) = ((s.getV x).toNat - (s.getV y).toNat : Int) % 256) ∧
        (t.getV 15).toNat = (if (s.getV y).toNat ≤ (s.getV x).toNat then 1 else 0) ∧
        t.pc.toNat = (s.pc.toNat + 2) % 65536 ∧ Unchanged { regs := [x, 15] } s t) ∧
    (decode (BitVec.ofNat 16 (0x8007 + x.toNat * 256 + y.toNat * 16)) = .ok (.subn x y) ∧
      ∃ t, exec (.subn x y) s = .next t ∧
        (x ≠ 15 → ((t.getV x).toNat : Int) = ((s.getV y).toNat - (s.getV x).toNat : Int) % 256) ∧
        (t.getV 15).toNat = (if (s.getV x).toNat ≤ (s.getV y).toNat then 1 else 0) ∧
        t.pc.toNat = (s.pc.toNat + 2) % 65536 ∧ Unchanged { regs := [x, 15] } s t)

/-- R158, R160 (in place: decision D11; flag last: decision D12): shifts by one of `V[X]`, with the bit shifted out in `VF`; `Y` plays no
part. The words are those of R90, whose families and selectors are decision D1. (`PC` modulo 65536: decision D21, log 15.) -/
def Obligations.ShiftsSetBitShiftedOut : Prop :=
  ∀ (x y : Nibble) (s : State),
    (decode (BitVec.ofNat 16 (0x8006 + x.toNat * 256 + y.toNat * 16)) = .ok (.shr x y) ∧
      ∃ t, exec (.shr x y) s = .next t ∧ (x ≠ 15 → (t.getV x).toNat = (s.getV x).toNat / 2) ∧
        (t.getV 15).toNat = (s.getV x).toNat % 2 ∧ t.pc.toNat = (s.pc.toNat + 2) % 65536 ∧ Unchanged { regs := [x, 15] } s t) ∧
    (decode (BitVec.ofNat 16 (0x800E + x.toNat * 256 + y.toNat * 16)) = .ok (.shl x y) ∧
      ∃ t, exec (.shl x y) s = .next t ∧ (x ≠ 15 → (t.getV x).toNat = (s.getV x).toNat * 2 % 256) ∧
        (t.getV 15).toNat = (s.getV x).toNat / 128 ∧ t.pc.toNat = (s.pc.toNat + 2) % 65536 ∧ Unchanged { regs := [x, 15] } s t)

/-- R161: `RND` stores a fresh draw masked with the immediate; the draw is a free value (log 4), so this holds for every draw. The words are
those of R90, whose families and selectors are decision D1. (`VF` unchanged: decision D13, log 9. `PC` modulo 65536: decision D21, log
15.) -/
def Obligations.RandomStoresMaskedDraw : Prop :=
  ∀ (x : Nibble) (nn : Byte) (s : State), decode (BitVec.ofNat 16 (0xC000 + x.toNat * 256 + nn.toNat)) = .ok (.rnd x nn) ∧
    ∃ t, exec (.rnd x nn) s = .next t ∧
      (∀ k, (t.getV x).getLsbD k = ((Config.randomByte s.draws).getLsbD k && nn.getLsbD k)) ∧ t.draws = s.draws + 1 ∧
      t.pc.toNat = (s.pc.toNat + 2) % 65536 ∧ Unchanged { regs := [x], draws := true } s t

/-! Address register and memory transfers -/

/-- R170: the address register gets `NNN`, also where no such address exists. The words are those of R90, whose families and selectors are
decision D1. (`VF` unchanged: decision D13, log 9. `PC` modulo 65536: decision D21, log 15.) -/
def Obligations.LoadAddressRegister : Prop :=
  ∀ (nnn : Addr) (s : State), decode (BitVec.ofNat 16 (0xA000 + nnn.toNat)) = .ok (.ldI nnn) ∧
    ∃ t, exec (.ldI nnn) s = .next t ∧ t.i.toNat = nnn.toNat ∧ t.pc.toNat = (s.pc.toNat + 2) % 65536 ∧ Unchanged { i := true } s t

/-- R171 (that `VF` is not written is decision D13): the sum wraps modulo 65536 and is not reduced to 12 bits. The words are those of R90,
whose families and selectors are decision D1. (`PC` modulo 65536: decision D21, log 15.) -/
def Obligations.AddToAddressRegister : Prop :=
  ∀ (x : Nibble) (s : State), decode (BitVec.ofNat 16 (0xF01E + x.toNat * 256)) = .ok (.addI x) ∧
    ∃ t, exec (.addI x) s = .next t ∧ t.i.toNat = (s.i.toNat + (s.getV x).toNat) % 65536 ∧
      t.pc.toNat = (s.pc.toNat + 2) % 65536 ∧ Unchanged { i := true } s t

/-- R172 (that all 8 bits are used is decision D15): the address of the glyph is five times the register. The words are those of R90, whose
families and selectors are decision D1. (`VF` unchanged: decision D13, log 9. `PC` modulo 65536: decision D21, log 15.) -/
def Obligations.GlyphAddressIsFiveTimesDigit : Prop :=
  ∀ (x : Nibble) (s : State), decode (BitVec.ofNat 16 (0xF029 + x.toNat * 256)) = .ok (.ldF x) ∧
    ∃ t, exec (.ldF x) s = .next t ∧ t.i.toNat = 5 * (s.getV x).toNat ∧
      t.pc.toNat = (s.pc.toNat + 2) % 65536 ∧ Unchanged { i := true } s t

/-- R173 (`I` unchanged: decision D14; addresses not wrapped: decision D17): the three decimal digits at `I`, `I + 1`, `I + 2`; the fault is
that of the first offending address. The words are those of R90, whose families and selectors are decision D1. (`VF` unchanged: decision
D13, log 9. `PC` modulo 65536: decision D21, log 15.) -/
def Obligations.DecimalStore : Prop :=
  ∀ (x : Nibble) (s : State), decode (BitVec.ofNat 16 (0xF033 + x.toNat * 256)) = .ok (.ldB x) ∧
    (s.i.toNat < 512 → exec (.ldB x) s = .fault (.memoryProtectionViolation s.i.toNat)) ∧
    (4092 < s.i.toNat → exec (.ldB x) s = .fault (.memoryOutOfRange (max s.i.toNat 4095))) ∧
    (512 ≤ s.i.toNat → s.i.toNat ≤ 4092 → ∃ t, exec (.ldB x) s = .next t ∧
      (t.mem.get (effAddr s 0)).toNat = (s.getV x).toNat / 100 ∧ (t.mem.get (effAddr s 1)).toNat = (s.getV x).toNat / 10 % 10 ∧
      (t.mem.get (effAddr s 2)).toNat = (s.getV x).toNat % 10 ∧ t.pc.toNat = (s.pc.toNat + 2) % 65536 ∧
      Unchanged { bytes := [effAddr s 0, effAddr s 1, effAddr s 2] } s t)

/-- R174 (`I` unchanged: decision D14; addresses not wrapped: decision D17): `V[0]` to `V[X]` at `I` on; the fault is that of the first
offending address. The words are those of R90, whose families and selectors are decision D1. (`VF` unchanged: decision D13, log 9. `PC`
modulo 65536: decision D21, log 15.) -/
def Obligations.BlockStore : Prop :=
  ∀ (x : Nibble) (s : State), decode (BitVec.ofNat 16 (0xF055 + x.toNat * 256)) = .ok (.storeRegs x) ∧
    (s.i.toNat < 512 → exec (.storeRegs x) s = .fault (.memoryProtectionViolation s.i.toNat)) ∧
    (4094 < s.i.toNat + x.toNat → exec (.storeRegs x) s = .fault (.memoryOutOfRange (max s.i.toNat 4095))) ∧
    (512 ≤ s.i.toNat → s.i.toNat + x.toNat ≤ 4094 → ∃ t, exec (.storeRegs x) s = .next t ∧
      (∀ r : Nibble, r.toNat ≤ x.toNat → t.mem.get (effAddr s r.toNat) = s.getV r) ∧ t.pc.toNat = (s.pc.toNat + 2) % 65536 ∧
      Unchanged { bytes := (List.range (x.toNat + 1)).map (effAddr s) } s t)

/-- R175 (`I` unchanged: decision D14; addresses not wrapped: decision D17): `V[0]` to `V[X]` from `I` on, the other registers as they were;
the fault is that of the first address that does not exist. The words are those of R90, whose families and selectors are decision D1.
(`VF` unchanged: decision D13, log 9. `PC` modulo 65536: decision D21, log 15.) -/
def Obligations.BlockLoad : Prop :=
  ∀ (x : Nibble) (s : State), decode (BitVec.ofNat 16 (0xF065 + x.toNat * 256)) = .ok (.loadRegs x) ∧
    (4094 < s.i.toNat + x.toNat → exec (.loadRegs x) s = .fault (.memoryOutOfRange (max s.i.toNat 4095))) ∧
    (s.i.toNat + x.toNat ≤ 4094 → ∃ t, exec (.loadRegs x) s = .next t ∧
      (∀ r : Nibble, r.toNat ≤ x.toNat → t.getV r = s.mem.get (effAddr s r.toNat)) ∧ t.pc.toNat = (s.pc.toNat + 2) % 65536 ∧
      Unchanged { regs := (List.range (x.toNat + 1)).map (BitVec.ofNat 4) } s t)

/-- R174, R175 (95_test_vectors.md S7): a block store, then at the same `I` and the same memory, whatever else changed, a block load of the
same registers gives them back. -/
def Obligations.BlockStoreThenLoadRoundTrips : Prop :=
  ∀ (x : Nibble) (s t u : State), exec (.storeRegs x) s = .next t → u.mem = t.mem → u.i = t.i →
    ∃ w, exec (.loadRegs x) u = .next w ∧ ∀ r : Nibble, r.toNat ≤ x.toNat → w.getV r = s.getV r

/-! Display -/

/-- R180: `CLS` turns every cell off and changes nothing else, `VF` included; the frame its tick publishes has every cell off. (`VF`
unchanged: decision D13, log 9. `PC` modulo 65536: decision D21, log 15.) -/
def Obligations.ClearTurnsEveryCellOff : Prop :=
  decode 0x00E0 = .ok .cls ∧ ∀ s : State, ∃ t, exec .cls s = .next t ∧ (∀ x y, Display.cell t.disp x y = false) ∧
    t.pc.toNat = (s.pc.toNat + 2) % 65536 ∧ Unchanged { disp := true } s t ∧
    (Fetches s .cls → ∃ u d, step s = .next u ∧ u.frame = some d ∧ ∀ x y, Display.cell d x y = false)

/-- R181 (bit 7 leftmost: decision D7; addresses not wrapped: decision D17), the sequential draw in closed form: each cell under a set sprite
bit changes and no other does, and `VF` is 1 exactly when one of them was on; the fault is that of the first row that does not exist. The
words are those of R90, whose families and selectors are decision D1. (`PC` modulo 65536: decision D21, log 15.) -/
def Obligations.DrawXorsSpriteAndReportsCollision : Prop :=
  ∀ (x y n : Nibble) (s : State),
    decode (BitVec.ofNat 16 (0xD000 + x.toNat * 256 + y.toNat * 16 + n.toNat)) = .ok (.drw x y n) ∧
    (n.toNat ≠ 0 → 4095 < s.i.toNat + n.toNat → exec (.drw x y n) s = .fault (.memoryOutOfRange (max s.i.toNat 4095))) ∧
    (n.toNat = 0 ∨ s.i.toNat + n.toNat ≤ 4095 → ∃ t, exec (.drw x y n) s = .next t ∧
      (∀ px py, px < 64 → py < 32 →
        (SpriteCovers s x y n px py → Display.cell t.disp px py = !Display.cell s.disp px py) ∧
        (¬SpriteCovers s x y n px py → Display.cell t.disp px py = Display.cell s.disp px py)) ∧
      ((∃ px py, px < 64 ∧ py < 32 ∧ Display.cell s.disp px py = true ∧ SpriteCovers s x y n px py) → t.getV 15 = 1) ∧
      ((∀ px py, px < 64 → py < 32 → Display.cell s.disp px py = true → ¬SpriteCovers s x y n px py) → t.getV 15 = 0) ∧
      t.pc.toNat = (s.pc.toNat + 2) % 65536 ∧ Unchanged { regs := [15], disp := true } s t)

/-- R181 (95_test_vectors.md S5): the same sprite drawn again at the same place restores the display; from a clear display the first draw
reports no collision and the second reports one exactly when the sprite has a set bit. -/
def Obligations.DrawTwiceRestoresDisplay : Prop :=
  ∀ (x y n : Nibble) (s t : State), exec (.drw x y n) s = .next t → t.getV x = s.getV x → t.getV y = s.getV y →
    ∃ u, exec (.drw x y n) t = .next u ∧ u.disp = s.disp ∧
      ((∀ px py, Display.cell s.disp px py = false) → t.getV 15 = 0 ∧
        ((∃ px py, SpriteCovers s x y n px py) → u.getV 15 = 1) ∧ ((∀ px py, ¬SpriteCovers s x y n px py) → u.getV 15 = 0))

/-! Timers and keys -/

/-- R190, R192, R193: the three timer moves, in the instruction and in the step, whose decrement follows them. The words are those of R90,
whose families and selectors are decision D1. (`VF` unchanged: decision D13, log 9. `PC` modulo 65536: decision D21, log 15.) -/
def Obligations.TimerMoves : Prop :=
  ∀ (x : Nibble) (s : State),
    (decode (BitVec.ofNat 16 (0xF007 + x.toNat * 256)) = .ok (.ldVxDt x) ∧
      (∃ t, exec (.ldVxDt x) s = .next t ∧ t.getV x = s.dt ∧ t.pc.toNat = (s.pc.toNat + 2) % 65536 ∧ Unchanged { regs := [x] } s t) ∧
      (Fetches s (.ldVxDt x) → ∃ t, step s = .next t ∧ t.getV x = s.dt ∧ t.dt.toNat = s.dt.toNat - 1)) ∧
    (decode (BitVec.ofNat 16 (0xF015 + x.toNat * 256)) = .ok (.ldDtVx x) ∧
      (∃ t, exec (.ldDtVx x) s = .next t ∧ t.dt = s.getV x ∧ t.pc.toNat = (s.pc.toNat + 2) % 65536 ∧ Unchanged { dt := true } s t) ∧
      (Fetches s (.ldDtVx x) → ∃ t, step s = .next t ∧ t.dt.toNat = (s.getV x).toNat - 1)) ∧
    (decode (BitVec.ofNat 16 (0xF018 + x.toNat * 256)) = .ok (.ldStVx x) ∧
      (∃ t, exec (.ldStVx x) s = .next t ∧ t.st = s.getV x ∧ t.pc.toNat = (s.pc.toNat + 2) % 65536 ∧ Unchanged { st := true } s t) ∧
      (Fetches s (.ldStVx x) → ∃ t, step s = .next t ∧ t.st.toNat = (s.getV x).toNat - 1))

/-- R191 (non-blocking: decision D29): with a key held the register gets the lowest one, with none it is left as it was; either way the
instruction advances. The words are those of R90, whose families and selectors are decision D1. (`VF` unchanged: decision D13, log 9. `PC`
modulo 65536: decision D21, log 15.) -/
def Obligations.KeyWaitTakesLowestAndNeverBlocks : Prop :=
  ∀ (x : Nibble) (s : State), decode (BitVec.ofNat 16 (0xF00A + x.toNat * 256)) = .ok (.ldVxK x) ∧
    ∃ t, exec (.ldVxK x) s = .next t ∧ t.pc.toNat = (s.pc.toNat + 2) % 65536 ∧
      (∀ k : KeyId, s.held[k.val] = true → (∀ j : KeyId, j < k → s.held[j.val] = false) →
        (t.getV x).toNat = k.val ∧ Unchanged { regs := [x] } s t) ∧
      ((∀ k : KeyId, s.held[k.val] = false) → Unchanged {} s t)

/-- R212, R216, R220: a key pressed is held on every one of the ticks that follow with no other event, and not held after the tick that
follows its release. -/
def Obligations.PressedKeyIsHeldUntilReleased : Prop :=
  ∀ (k : KeyId) (n : Nat) (s t : State), k ∉ s.relQ →
    runMoves (.keys [k] [] :: List.replicate (n + 1) .tick) s = some t → t.status = .running →
    t.held[k.val] = true ∧ ∀ u, runMoves [.keys [] [k], .tick] t = some u → u.status = .running → u.held[k.val] = false

/-- R214, R218 (that taking empties the slot is decision D24): after any number of ticks the host takes the display of the last one, and then
finds the slot empty. -/
def Obligations.TakenFrameIsTheNewest : Prop :=
  ∀ (n : Nat) (s t : State), runMoves (List.replicate (n + 1) .tick) s = some t → t.status = .running →
    (hostTakeFrame t).1 = some t.disp ∧ (hostTakeFrame (hostTakeFrame t).2).1 = none

/-! Random draws -/

/-- R161 ("a fresh one for every executed `RND`"; decision D25; the count of draws that names each one is the model's, log 4): over any moves,
resets and halts included, the count never falls, and it has grown past the one an executed `RND` used, so that no later `RND` gets that
draw. -/
def Obligations.EveryDrawIsFresh : Prop :=
  (∀ (ms : List Move) (s t : State), runMoves ms s = some t → s.draws ≤ t.draws) ∧
    ∀ (ms : List Move) (s t : State) (x : Nibble) (nn : Byte),
      Fetches s (.rnd x nn) → runMoves (.tick :: ms) s = some t → s.draws < t.draws
end

