-- ==== Sys2Proof/Laws/Decode.lean ====
section
/-! SUPPORT. The fields of a word as numbers, and the words of the formats as numbers (30_encoding.md rules R81, R82). -/

namespace Sys2Proof

/-! Fields of a word (R82) -/

theorem fieldF_toNat (w : Word) : (fieldF w).toNat = w.toNat / 4096 := by
  have := w.isLt
  simp only [fieldF, BitVec.extractLsb'_toNat, Nat.shiftRight_eq_div_pow]; omega

theorem fieldX_toNat (w : Word) : (fieldX w).toNat = w.toNat / 256 % 16 := by
  simp only [fieldX, BitVec.extractLsb'_toNat, Nat.shiftRight_eq_div_pow, Nat.reducePow]

theorem fieldY_toNat (w : Word) : (fieldY w).toNat = w.toNat / 16 % 16 := by
  simp only [fieldY, BitVec.extractLsb'_toNat, Nat.shiftRight_eq_div_pow, Nat.reducePow]

theorem fieldN_toNat (w : Word) : (fieldN w).toNat = w.toNat % 16 := by
  simp only [fieldN, BitVec.extractLsb'_toNat, Nat.shiftRight_eq_div_pow]; omega

theorem fieldNN_toNat (w : Word) : (fieldNN w).toNat = w.toNat % 256 := by
  simp only [fieldNN, BitVec.extractLsb'_toNat, Nat.shiftRight_eq_div_pow]; omega

theorem fieldNNN_toNat (w : Word) : (fieldNNN w).toNat = w.toNat % 4096 := by
  simp only [fieldNNN, BitVec.extractLsb'_toNat, Nat.shiftRight_eq_div_pow]; omega

/-! Words of the formats (R81) -/

/-- Concatenation as a number. -/
theorem append_toNat {m n : Nat} (a : BitVec m) (b : BitVec n) : (a ++ b).toNat = a.toNat * 2 ^ n + b.toNat := by
  rw [BitVec.toNat_append, Nat.shiftLeft_eq, ← Nat.shiftLeft_eq, ← Nat.shiftLeft_add_eq_or_of_lt b.isLt, Nat.shiftLeft_eq]

theorem wordA_toNat (f : Nibble) (nnn : Addr) : (f ++ nnn : Word).toNat = f.toNat * 4096 + nnn.toNat :=
  append_toNat f nnn

theorem wordXI_toNat (f x : Nibble) (nn : Byte) : (f ++ x ++ nn : Word).toNat = f.toNat * 4096 + x.toNat * 256 + nn.toNat := by
  have h1 := append_toNat (f ++ x) nn
  have h2 := append_toNat f x
  rw [h2] at h1
  refine h1.trans ?_
  omega

theorem wordXYN_toNat (f x y n : Nibble) :
    (f ++ x ++ y ++ n : Word).toNat = f.toNat * 4096 + x.toNat * 256 + y.toNat * 16 + n.toNat := by
  have h1 := append_toNat (f ++ x ++ y) n
  have h2 := append_toNat (f ++ x) y
  have h3 := append_toNat f x
  rw [h2, h3] at h1
  refine h1.trans ?_
  omega

/-- Big-endian: the byte at the lower address is the high one (20_memory.md rule R57). -/
theorem wordOfBytes_toNat (hi lo : Byte) : (wordOfBytes hi lo).toNat = hi.toNat * 256 + lo.toNat :=
  append_toNat hi lo

/-- The bytes of a word make the word again. -/
@[simp] theorem wordOfBytes_bytes (w : Word) : wordOfBytes (highByte w) (lowByte w) = w := by
  have := w.isLt
  apply BitVec.eq_of_toNat_eq
  simp only [wordOfBytes_toNat, highByte, lowByte, BitVec.extractLsb'_toNat, Nat.shiftRight_eq_div_pow]
  omega

/-! A word built from fields has those fields, and is the number the fields make (R81, R82) -/

theorem fieldF_wordA (f : Nibble) (nnn : Addr) : fieldF (f ++ nnn) = f := by
  have := nnn.isLt
  apply BitVec.eq_of_toNat_eq; rw [fieldF_toNat, wordA_toNat]; omega

theorem fieldNNN_wordA (f : Nibble) (nnn : Addr) : fieldNNN (f ++ nnn) = nnn := by
  have := nnn.isLt
  apply BitVec.eq_of_toNat_eq; rw [fieldNNN_toNat, wordA_toNat]; omega

theorem fieldF_wordXI (f x : Nibble) (nn : Byte) : fieldF (f ++ x ++ nn) = f := by
  have := x.isLt; have := nn.isLt
  apply BitVec.eq_of_toNat_eq; rw [fieldF_toNat, wordXI_toNat]; omega

theorem fieldX_wordXI (f x : Nibble) (nn : Byte) : fieldX (f ++ x ++ nn) = x := by
  have := x.isLt; have := nn.isLt
  apply BitVec.eq_of_toNat_eq; rw [fieldX_toNat, wordXI_toNat]; omega

theorem fieldNN_wordXI (f x : Nibble) (nn : Byte) : fieldNN (f ++ x ++ nn) = nn := by
  have := x.isLt; have := nn.isLt
  apply BitVec.eq_of_toNat_eq; rw [fieldNN_toNat, wordXI_toNat]; omega

theorem fieldF_wordXYN (f x y n : Nibble) : fieldF (f ++ x ++ y ++ n) = f := by
  have := x.isLt; have := y.isLt; have := n.isLt
  apply BitVec.eq_of_toNat_eq; rw [fieldF_toNat, wordXYN_toNat]; omega

theorem fieldX_wordXYN (f x y n : Nibble) : fieldX (f ++ x ++ y ++ n) = x := by
  have := x.isLt; have := y.isLt; have := n.isLt
  apply BitVec.eq_of_toNat_eq; rw [fieldX_toNat, wordXYN_toNat]; omega

theorem fieldY_wordXYN (f x y n : Nibble) : fieldY (f ++ x ++ y ++ n) = y := by
  have := x.isLt; have := y.isLt; have := n.isLt
  apply BitVec.eq_of_toNat_eq; rw [fieldY_toNat, wordXYN_toNat]; omega

theorem fieldN_wordXYN (f x y n : Nibble) : fieldN (f ++ x ++ y ++ n) = n := by
  have := x.isLt; have := y.isLt; have := n.isLt
  apply BitVec.eq_of_toNat_eq; rw [fieldN_toNat, wordXYN_toNat]; omega

theorem wordA_ofNat (f : Nibble) (nnn : Addr) : BitVec.ofNat 16 (f.toNat * 4096 + nnn.toNat) = (f ++ nnn : Word) := by
  have := f.isLt; have := nnn.isLt
  apply BitVec.eq_of_toNat_eq; rw [wordA_toNat, BitVec.toNat_ofNat]; omega

theorem wordXI_ofNat (f x : Nibble) (nn : Byte) :
    BitVec.ofNat 16 (f.toNat * 4096 + x.toNat * 256 + nn.toNat) = (f ++ x ++ nn : Word) := by
  have := f.isLt; have := x.isLt; have := nn.isLt
  apply BitVec.eq_of_toNat_eq; rw [wordXI_toNat, BitVec.toNat_ofNat]; omega

theorem wordXYN_ofNat (f x y n : Nibble) :
    BitVec.ofNat 16 (f.toNat * 4096 + x.toNat * 256 + y.toNat * 16 + n.toNat) = (f ++ x ++ y ++ n : Word) := by
  have := f.isLt; have := x.isLt; have := y.isLt; have := n.isLt
  apply BitVec.eq_of_toNat_eq; rw [wordXYN_toNat, BitVec.toNat_ofNat]; omega

/-! Which arm of the decoder a word takes, by its family (R86) -/

theorem decode_family0 {w : Word} (h : fieldF w = 0x0#4) : decode w = .ok (decodeFamily0 w) := by simp only [decode, h]
theorem decode_family1 {w : Word} (h : fieldF w = 0x1#4) : decode w = .ok (.jp (fieldNNN w)) := by simp only [decode, h]
theorem decode_family2 {w : Word} (h : fieldF w = 0x2#4) : decode w = .ok (.call (fieldNNN w)) := by simp only [decode, h]
theorem decode_family3 {w : Word} (h : fieldF w = 0x3#4) : decode w = .ok (.seImm (fieldX w) (fieldNN w)) := by simp only [decode, h]
theorem decode_family4 {w : Word} (h : fieldF w = 0x4#4) : decode w = .ok (.sneImm (fieldX w) (fieldNN w)) := by simp only [decode, h]
theorem decode_family5 {w : Word} (h : fieldF w = 0x5#4) : decode w = .ok (.seReg (fieldX w) (fieldY w)) := by simp only [decode, h]
theorem decode_family6 {w : Word} (h : fieldF w = 0x6#4) : decode w = .ok (.ldImm (fieldX w) (fieldNN w)) := by simp only [decode, h]
theorem decode_family7 {w : Word} (h : fieldF w = 0x7#4) : decode w = .ok (.addImm (fieldX w) (fieldNN w)) := by simp only [decode, h]
theorem decode_family8 {w : Word} (h : fieldF w = 0x8#4) : decode w = decodeFamily8 w := by simp only [decode, h]
theorem decode_family9 {w : Word} (h : fieldF w = 0x9#4) : decode w = decodeFamily9 w := by simp only [decode, h]
theorem decode_familyA {w : Word} (h : fieldF w = 0xA#4) : decode w = .ok (.ldI (fieldNNN w)) := by simp only [decode, h]
theorem decode_familyB {w : Word} (h : fieldF w = 0xB#4) : decode w = .ok (.jpV0 (fieldNNN w)) := by simp only [decode, h]
theorem decode_familyC {w : Word} (h : fieldF w = 0xC#4) : decode w = .ok (.rnd (fieldX w) (fieldNN w)) := by simp only [decode, h]
theorem decode_familyD {w : Word} (h : fieldF w = 0xD#4) : decode w = .ok (.drw (fieldX w) (fieldY w) (fieldN w)) := by simp only [decode, h]
theorem decode_familyE {w : Word} (h : fieldF w = 0xE#4) : decode w = decodeFamilyE w := by simp only [decode, h]
theorem decode_familyF {w : Word} (h : fieldF w = 0xF#4) : decode w = decodeFamilyF w := by simp only [decode, h]; rfl

end Sys2Proof
end

