-- ==== Sys2Proof/Laws/State.lean ====
section
/-! SUPPORT. One lemma per field per update of State, each true by rfl, so that no later proof unfolds a record update. -/

namespace Sys2Proof.Machine

@[simp] theorem State.setV_v (s : State) (x : Nibble) (b : Byte) : (s.setV x b).v = s.v.set x.toNat b (nibble_lt_nRegs x) := rfl
@[simp] theorem State.setV_i (s : State) (x : Nibble) (b : Byte) : (s.setV x b).i = s.i := rfl
@[simp] theorem State.setV_dt (s : State) (x : Nibble) (b : Byte) : (s.setV x b).dt = s.dt := rfl
@[simp] theorem State.setV_st (s : State) (x : Nibble) (b : Byte) : (s.setV x b).st = s.st := rfl
@[simp] theorem State.setV_pc (s : State) (x : Nibble) (b : Byte) : (s.setV x b).pc = s.pc := rfl
@[simp] theorem State.setV_stack (s : State) (x : Nibble) (b : Byte) : (s.setV x b).stack = s.stack := rfl
@[simp] theorem State.setV_mem (s : State) (x : Nibble) (b : Byte) : (s.setV x b).mem = s.mem := rfl
@[simp] theorem State.setV_disp (s : State) (x : Nibble) (b : Byte) : (s.setV x b).disp = s.disp := rfl
@[simp] theorem State.setV_held (s : State) (x : Nibble) (b : Byte) : (s.setV x b).held = s.held := rfl
@[simp] theorem State.setV_pressQ (s : State) (x : Nibble) (b : Byte) : (s.setV x b).pressQ = s.pressQ := rfl
@[simp] theorem State.setV_relQ (s : State) (x : Nibble) (b : Byte) : (s.setV x b).relQ = s.relQ := rfl
@[simp] theorem State.setV_frame (s : State) (x : Nibble) (b : Byte) : (s.setV x b).frame = s.frame := rfl
@[simp] theorem State.setV_status (s : State) (x : Nibble) (b : Byte) : (s.setV x b).status = s.status := rfl
@[simp] theorem State.setV_draws (s : State) (x : Nibble) (b : Byte) : (s.setV x b).draws = s.draws := rfl

@[simp] theorem State.setI_v (s : State) (n : Word) : (s.setI n).v = s.v := rfl
@[simp] theorem State.setI_i (s : State) (n : Word) : (s.setI n).i = n := rfl
@[simp] theorem State.setI_dt (s : State) (n : Word) : (s.setI n).dt = s.dt := rfl
@[simp] theorem State.setI_st (s : State) (n : Word) : (s.setI n).st = s.st := rfl
@[simp] theorem State.setI_pc (s : State) (n : Word) : (s.setI n).pc = s.pc := rfl
@[simp] theorem State.setI_stack (s : State) (n : Word) : (s.setI n).stack = s.stack := rfl
@[simp] theorem State.setI_mem (s : State) (n : Word) : (s.setI n).mem = s.mem := rfl
@[simp] theorem State.setI_disp (s : State) (n : Word) : (s.setI n).disp = s.disp := rfl
@[simp] theorem State.setI_held (s : State) (n : Word) : (s.setI n).held = s.held := rfl
@[simp] theorem State.setI_pressQ (s : State) (n : Word) : (s.setI n).pressQ = s.pressQ := rfl
@[simp] theorem State.setI_relQ (s : State) (n : Word) : (s.setI n).relQ = s.relQ := rfl
@[simp] theorem State.setI_frame (s : State) (n : Word) : (s.setI n).frame = s.frame := rfl
@[simp] theorem State.setI_status (s : State) (n : Word) : (s.setI n).status = s.status := rfl
@[simp] theorem State.setI_draws (s : State) (n : Word) : (s.setI n).draws = s.draws := rfl

@[simp] theorem State.setDT_v (s : State) (n : Byte) : (s.setDT n).v = s.v := rfl
@[simp] theorem State.setDT_i (s : State) (n : Byte) : (s.setDT n).i = s.i := rfl
@[simp] theorem State.setDT_dt (s : State) (n : Byte) : (s.setDT n).dt = n := rfl
@[simp] theorem State.setDT_st (s : State) (n : Byte) : (s.setDT n).st = s.st := rfl
@[simp] theorem State.setDT_pc (s : State) (n : Byte) : (s.setDT n).pc = s.pc := rfl
@[simp] theorem State.setDT_stack (s : State) (n : Byte) : (s.setDT n).stack = s.stack := rfl
@[simp] theorem State.setDT_mem (s : State) (n : Byte) : (s.setDT n).mem = s.mem := rfl
@[simp] theorem State.setDT_disp (s : State) (n : Byte) : (s.setDT n).disp = s.disp := rfl
@[simp] theorem State.setDT_held (s : State) (n : Byte) : (s.setDT n).held = s.held := rfl
@[simp] theorem State.setDT_pressQ (s : State) (n : Byte) : (s.setDT n).pressQ = s.pressQ := rfl
@[simp] theorem State.setDT_relQ (s : State) (n : Byte) : (s.setDT n).relQ = s.relQ := rfl
@[simp] theorem State.setDT_frame (s : State) (n : Byte) : (s.setDT n).frame = s.frame := rfl
@[simp] theorem State.setDT_status (s : State) (n : Byte) : (s.setDT n).status = s.status := rfl
@[simp] theorem State.setDT_draws (s : State) (n : Byte) : (s.setDT n).draws = s.draws := rfl

@[simp] theorem State.setST_v (s : State) (n : Byte) : (s.setST n).v = s.v := rfl
@[simp] theorem State.setST_i (s : State) (n : Byte) : (s.setST n).i = s.i := rfl
@[simp] theorem State.setST_dt (s : State) (n : Byte) : (s.setST n).dt = s.dt := rfl
@[simp] theorem State.setST_st (s : State) (n : Byte) : (s.setST n).st = n := rfl
@[simp] theorem State.setST_pc (s : State) (n : Byte) : (s.setST n).pc = s.pc := rfl
@[simp] theorem State.setST_stack (s : State) (n : Byte) : (s.setST n).stack = s.stack := rfl
@[simp] theorem State.setST_mem (s : State) (n : Byte) : (s.setST n).mem = s.mem := rfl
@[simp] theorem State.setST_disp (s : State) (n : Byte) : (s.setST n).disp = s.disp := rfl
@[simp] theorem State.setST_held (s : State) (n : Byte) : (s.setST n).held = s.held := rfl
@[simp] theorem State.setST_pressQ (s : State) (n : Byte) : (s.setST n).pressQ = s.pressQ := rfl
@[simp] theorem State.setST_relQ (s : State) (n : Byte) : (s.setST n).relQ = s.relQ := rfl
@[simp] theorem State.setST_frame (s : State) (n : Byte) : (s.setST n).frame = s.frame := rfl
@[simp] theorem State.setST_status (s : State) (n : Byte) : (s.setST n).status = s.status := rfl
@[simp] theorem State.setST_draws (s : State) (n : Byte) : (s.setST n).draws = s.draws := rfl

@[simp] theorem State.setPC_v (s : State) (n : Word) : (s.setPC n).v = s.v := rfl
@[simp] theorem State.setPC_i (s : State) (n : Word) : (s.setPC n).i = s.i := rfl
@[simp] theorem State.setPC_dt (s : State) (n : Word) : (s.setPC n).dt = s.dt := rfl
@[simp] theorem State.setPC_st (s : State) (n : Word) : (s.setPC n).st = s.st := rfl
@[simp] theorem State.setPC_pc (s : State) (n : Word) : (s.setPC n).pc = n := rfl
@[simp] theorem State.setPC_stack (s : State) (n : Word) : (s.setPC n).stack = s.stack := rfl
@[simp] theorem State.setPC_mem (s : State) (n : Word) : (s.setPC n).mem = s.mem := rfl
@[simp] theorem State.setPC_disp (s : State) (n : Word) : (s.setPC n).disp = s.disp := rfl
@[simp] theorem State.setPC_held (s : State) (n : Word) : (s.setPC n).held = s.held := rfl
@[simp] theorem State.setPC_pressQ (s : State) (n : Word) : (s.setPC n).pressQ = s.pressQ := rfl
@[simp] theorem State.setPC_relQ (s : State) (n : Word) : (s.setPC n).relQ = s.relQ := rfl
@[simp] theorem State.setPC_frame (s : State) (n : Word) : (s.setPC n).frame = s.frame := rfl
@[simp] theorem State.setPC_status (s : State) (n : Word) : (s.setPC n).status = s.status := rfl
@[simp] theorem State.setPC_draws (s : State) (n : Word) : (s.setPC n).draws = s.draws := rfl

@[simp] theorem State.setStack_v (s : State) (n : List Word) : (s.setStack n).v = s.v := rfl
@[simp] theorem State.setStack_i (s : State) (n : List Word) : (s.setStack n).i = s.i := rfl
@[simp] theorem State.setStack_dt (s : State) (n : List Word) : (s.setStack n).dt = s.dt := rfl
@[simp] theorem State.setStack_st (s : State) (n : List Word) : (s.setStack n).st = s.st := rfl
@[simp] theorem State.setStack_pc (s : State) (n : List Word) : (s.setStack n).pc = s.pc := rfl
@[simp] theorem State.setStack_stack (s : State) (n : List Word) : (s.setStack n).stack = n := rfl
@[simp] theorem State.setStack_mem (s : State) (n : List Word) : (s.setStack n).mem = s.mem := rfl
@[simp] theorem State.setStack_disp (s : State) (n : List Word) : (s.setStack n).disp = s.disp := rfl
@[simp] theorem State.setStack_held (s : State) (n : List Word) : (s.setStack n).held = s.held := rfl
@[simp] theorem State.setStack_pressQ (s : State) (n : List Word) : (s.setStack n).pressQ = s.pressQ := rfl
@[simp] theorem State.setStack_relQ (s : State) (n : List Word) : (s.setStack n).relQ = s.relQ := rfl
@[simp] theorem State.setStack_frame (s : State) (n : List Word) : (s.setStack n).frame = s.frame := rfl
@[simp] theorem State.setStack_status (s : State) (n : List Word) : (s.setStack n).status = s.status := rfl
@[simp] theorem State.setStack_draws (s : State) (n : List Word) : (s.setStack n).draws = s.draws := rfl

@[simp] theorem State.setMem_v (s : State) (n : Memory) : (s.setMem n).v = s.v := rfl
@[simp] theorem State.setMem_i (s : State) (n : Memory) : (s.setMem n).i = s.i := rfl
@[simp] theorem State.setMem_dt (s : State) (n : Memory) : (s.setMem n).dt = s.dt := rfl
@[simp] theorem State.setMem_st (s : State) (n : Memory) : (s.setMem n).st = s.st := rfl
@[simp] theorem State.setMem_pc (s : State) (n : Memory) : (s.setMem n).pc = s.pc := rfl
@[simp] theorem State.setMem_stack (s : State) (n : Memory) : (s.setMem n).stack = s.stack := rfl
@[simp] theorem State.setMem_mem (s : State) (n : Memory) : (s.setMem n).mem = n := rfl
@[simp] theorem State.setMem_disp (s : State) (n : Memory) : (s.setMem n).disp = s.disp := rfl
@[simp] theorem State.setMem_held (s : State) (n : Memory) : (s.setMem n).held = s.held := rfl
@[simp] theorem State.setMem_pressQ (s : State) (n : Memory) : (s.setMem n).pressQ = s.pressQ := rfl
@[simp] theorem State.setMem_relQ (s : State) (n : Memory) : (s.setMem n).relQ = s.relQ := rfl
@[simp] theorem State.setMem_frame (s : State) (n : Memory) : (s.setMem n).frame = s.frame := rfl
@[simp] theorem State.setMem_status (s : State) (n : Memory) : (s.setMem n).status = s.status := rfl
@[simp] theorem State.setMem_draws (s : State) (n : Memory) : (s.setMem n).draws = s.draws := rfl

@[simp] theorem State.setDisp_v (s : State) (n : Display) : (s.setDisp n).v = s.v := rfl
@[simp] theorem State.setDisp_i (s : State) (n : Display) : (s.setDisp n).i = s.i := rfl
@[simp] theorem State.setDisp_dt (s : State) (n : Display) : (s.setDisp n).dt = s.dt := rfl
@[simp] theorem State.setDisp_st (s : State) (n : Display) : (s.setDisp n).st = s.st := rfl
@[simp] theorem State.setDisp_pc (s : State) (n : Display) : (s.setDisp n).pc = s.pc := rfl
@[simp] theorem State.setDisp_stack (s : State) (n : Display) : (s.setDisp n).stack = s.stack := rfl
@[simp] theorem State.setDisp_mem (s : State) (n : Display) : (s.setDisp n).mem = s.mem := rfl
@[simp] theorem State.setDisp_disp (s : State) (n : Display) : (s.setDisp n).disp = n := rfl
@[simp] theorem State.setDisp_held (s : State) (n : Display) : (s.setDisp n).held = s.held := rfl
@[simp] theorem State.setDisp_pressQ (s : State) (n : Display) : (s.setDisp n).pressQ = s.pressQ := rfl
@[simp] theorem State.setDisp_relQ (s : State) (n : Display) : (s.setDisp n).relQ = s.relQ := rfl
@[simp] theorem State.setDisp_frame (s : State) (n : Display) : (s.setDisp n).frame = s.frame := rfl
@[simp] theorem State.setDisp_status (s : State) (n : Display) : (s.setDisp n).status = s.status := rfl
@[simp] theorem State.setDisp_draws (s : State) (n : Display) : (s.setDisp n).draws = s.draws := rfl

@[simp] theorem State.setHeld_v (s : State) (n : KeySet) : (s.setHeld n).v = s.v := rfl
@[simp] theorem State.setHeld_i (s : State) (n : KeySet) : (s.setHeld n).i = s.i := rfl
@[simp] theorem State.setHeld_dt (s : State) (n : KeySet) : (s.setHeld n).dt = s.dt := rfl
@[simp] theorem State.setHeld_st (s : State) (n : KeySet) : (s.setHeld n).st = s.st := rfl
@[simp] theorem State.setHeld_pc (s : State) (n : KeySet) : (s.setHeld n).pc = s.pc := rfl
@[simp] theorem State.setHeld_stack (s : State) (n : KeySet) : (s.setHeld n).stack = s.stack := rfl
@[simp] theorem State.setHeld_mem (s : State) (n : KeySet) : (s.setHeld n).mem = s.mem := rfl
@[simp] theorem State.setHeld_disp (s : State) (n : KeySet) : (s.setHeld n).disp = s.disp := rfl
@[simp] theorem State.setHeld_held (s : State) (n : KeySet) : (s.setHeld n).held = n := rfl
@[simp] theorem State.setHeld_pressQ (s : State) (n : KeySet) : (s.setHeld n).pressQ = s.pressQ := rfl
@[simp] theorem State.setHeld_relQ (s : State) (n : KeySet) : (s.setHeld n).relQ = s.relQ := rfl
@[simp] theorem State.setHeld_frame (s : State) (n : KeySet) : (s.setHeld n).frame = s.frame := rfl
@[simp] theorem State.setHeld_status (s : State) (n : KeySet) : (s.setHeld n).status = s.status := rfl
@[simp] theorem State.setHeld_draws (s : State) (n : KeySet) : (s.setHeld n).draws = s.draws := rfl

@[simp] theorem State.setPressQ_v (s : State) (n : List KeyId) : (s.setPressQ n).v = s.v := rfl
@[simp] theorem State.setPressQ_i (s : State) (n : List KeyId) : (s.setPressQ n).i = s.i := rfl
@[simp] theorem State.setPressQ_dt (s : State) (n : List KeyId) : (s.setPressQ n).dt = s.dt := rfl
@[simp] theorem State.setPressQ_st (s : State) (n : List KeyId) : (s.setPressQ n).st = s.st := rfl
@[simp] theorem State.setPressQ_pc (s : State) (n : List KeyId) : (s.setPressQ n).pc = s.pc := rfl
@[simp] theorem State.setPressQ_stack (s : State) (n : List KeyId) : (s.setPressQ n).stack = s.stack := rfl
@[simp] theorem State.setPressQ_mem (s : State) (n : List KeyId) : (s.setPressQ n).mem = s.mem := rfl
@[simp] theorem State.setPressQ_disp (s : State) (n : List KeyId) : (s.setPressQ n).disp = s.disp := rfl
@[simp] theorem State.setPressQ_held (s : State) (n : List KeyId) : (s.setPressQ n).held = s.held := rfl
@[simp] theorem State.setPressQ_pressQ (s : State) (n : List KeyId) : (s.setPressQ n).pressQ = n := rfl
@[simp] theorem State.setPressQ_relQ (s : State) (n : List KeyId) : (s.setPressQ n).relQ = s.relQ := rfl
@[simp] theorem State.setPressQ_frame (s : State) (n : List KeyId) : (s.setPressQ n).frame = s.frame := rfl
@[simp] theorem State.setPressQ_status (s : State) (n : List KeyId) : (s.setPressQ n).status = s.status := rfl
@[simp] theorem State.setPressQ_draws (s : State) (n : List KeyId) : (s.setPressQ n).draws = s.draws := rfl

@[simp] theorem State.setRelQ_v (s : State) (n : List KeyId) : (s.setRelQ n).v = s.v := rfl
@[simp] theorem State.setRelQ_i (s : State) (n : List KeyId) : (s.setRelQ n).i = s.i := rfl
@[simp] theorem State.setRelQ_dt (s : State) (n : List KeyId) : (s.setRelQ n).dt = s.dt := rfl
@[simp] theorem State.setRelQ_st (s : State) (n : List KeyId) : (s.setRelQ n).st = s.st := rfl
@[simp] theorem State.setRelQ_pc (s : State) (n : List KeyId) : (s.setRelQ n).pc = s.pc := rfl
@[simp] theorem State.setRelQ_stack (s : State) (n : List KeyId) : (s.setRelQ n).stack = s.stack := rfl
@[simp] theorem State.setRelQ_mem (s : State) (n : List KeyId) : (s.setRelQ n).mem = s.mem := rfl
@[simp] theorem State.setRelQ_disp (s : State) (n : List KeyId) : (s.setRelQ n).disp = s.disp := rfl
@[simp] theorem State.setRelQ_held (s : State) (n : List KeyId) : (s.setRelQ n).held = s.held := rfl
@[simp] theorem State.setRelQ_pressQ (s : State) (n : List KeyId) : (s.setRelQ n).pressQ = s.pressQ := rfl
@[simp] theorem State.setRelQ_relQ (s : State) (n : List KeyId) : (s.setRelQ n).relQ = n := rfl
@[simp] theorem State.setRelQ_frame (s : State) (n : List KeyId) : (s.setRelQ n).frame = s.frame := rfl
@[simp] theorem State.setRelQ_status (s : State) (n : List KeyId) : (s.setRelQ n).status = s.status := rfl
@[simp] theorem State.setRelQ_draws (s : State) (n : List KeyId) : (s.setRelQ n).draws = s.draws := rfl

@[simp] theorem State.setFrame_v (s : State) (n : Option Frame) : (s.setFrame n).v = s.v := rfl
@[simp] theorem State.setFrame_i (s : State) (n : Option Frame) : (s.setFrame n).i = s.i := rfl
@[simp] theorem State.setFrame_dt (s : State) (n : Option Frame) : (s.setFrame n).dt = s.dt := rfl
@[simp] theorem State.setFrame_st (s : State) (n : Option Frame) : (s.setFrame n).st = s.st := rfl
@[simp] theorem State.setFrame_pc (s : State) (n : Option Frame) : (s.setFrame n).pc = s.pc := rfl
@[simp] theorem State.setFrame_stack (s : State) (n : Option Frame) : (s.setFrame n).stack = s.stack := rfl
@[simp] theorem State.setFrame_mem (s : State) (n : Option Frame) : (s.setFrame n).mem = s.mem := rfl
@[simp] theorem State.setFrame_disp (s : State) (n : Option Frame) : (s.setFrame n).disp = s.disp := rfl
@[simp] theorem State.setFrame_held (s : State) (n : Option Frame) : (s.setFrame n).held = s.held := rfl
@[simp] theorem State.setFrame_pressQ (s : State) (n : Option Frame) : (s.setFrame n).pressQ = s.pressQ := rfl
@[simp] theorem State.setFrame_relQ (s : State) (n : Option Frame) : (s.setFrame n).relQ = s.relQ := rfl
@[simp] theorem State.setFrame_frame (s : State) (n : Option Frame) : (s.setFrame n).frame = n := rfl
@[simp] theorem State.setFrame_status (s : State) (n : Option Frame) : (s.setFrame n).status = s.status := rfl
@[simp] theorem State.setFrame_draws (s : State) (n : Option Frame) : (s.setFrame n).draws = s.draws := rfl

@[simp] theorem State.setStatus_v (s : State) (n : Status) : (s.setStatus n).v = s.v := rfl
@[simp] theorem State.setStatus_i (s : State) (n : Status) : (s.setStatus n).i = s.i := rfl
@[simp] theorem State.setStatus_dt (s : State) (n : Status) : (s.setStatus n).dt = s.dt := rfl
@[simp] theorem State.setStatus_st (s : State) (n : Status) : (s.setStatus n).st = s.st := rfl
@[simp] theorem State.setStatus_pc (s : State) (n : Status) : (s.setStatus n).pc = s.pc := rfl
@[simp] theorem State.setStatus_stack (s : State) (n : Status) : (s.setStatus n).stack = s.stack := rfl
@[simp] theorem State.setStatus_mem (s : State) (n : Status) : (s.setStatus n).mem = s.mem := rfl
@[simp] theorem State.setStatus_disp (s : State) (n : Status) : (s.setStatus n).disp = s.disp := rfl
@[simp] theorem State.setStatus_held (s : State) (n : Status) : (s.setStatus n).held = s.held := rfl
@[simp] theorem State.setStatus_pressQ (s : State) (n : Status) : (s.setStatus n).pressQ = s.pressQ := rfl
@[simp] theorem State.setStatus_relQ (s : State) (n : Status) : (s.setStatus n).relQ = s.relQ := rfl
@[simp] theorem State.setStatus_frame (s : State) (n : Status) : (s.setStatus n).frame = s.frame := rfl
@[simp] theorem State.setStatus_status (s : State) (n : Status) : (s.setStatus n).status = n := rfl
@[simp] theorem State.setStatus_draws (s : State) (n : Status) : (s.setStatus n).draws = s.draws := rfl

@[simp] theorem State.setDraws_v (s : State) (n : Nat) : (s.setDraws n).v = s.v := rfl
@[simp] theorem State.setDraws_i (s : State) (n : Nat) : (s.setDraws n).i = s.i := rfl
@[simp] theorem State.setDraws_dt (s : State) (n : Nat) : (s.setDraws n).dt = s.dt := rfl
@[simp] theorem State.setDraws_st (s : State) (n : Nat) : (s.setDraws n).st = s.st := rfl
@[simp] theorem State.setDraws_pc (s : State) (n : Nat) : (s.setDraws n).pc = s.pc := rfl
@[simp] theorem State.setDraws_stack (s : State) (n : Nat) : (s.setDraws n).stack = s.stack := rfl
@[simp] theorem State.setDraws_mem (s : State) (n : Nat) : (s.setDraws n).mem = s.mem := rfl
@[simp] theorem State.setDraws_disp (s : State) (n : Nat) : (s.setDraws n).disp = s.disp := rfl
@[simp] theorem State.setDraws_held (s : State) (n : Nat) : (s.setDraws n).held = s.held := rfl
@[simp] theorem State.setDraws_pressQ (s : State) (n : Nat) : (s.setDraws n).pressQ = s.pressQ := rfl
@[simp] theorem State.setDraws_relQ (s : State) (n : Nat) : (s.setDraws n).relQ = s.relQ := rfl
@[simp] theorem State.setDraws_frame (s : State) (n : Nat) : (s.setDraws n).frame = s.frame := rfl
@[simp] theorem State.setDraws_status (s : State) (n : Nat) : (s.setDraws n).status = s.status := rfl
@[simp] theorem State.setDraws_draws (s : State) (n : Nat) : (s.setDraws n).draws = n := rfl

/-- Two states are equal when every field is. -/
theorem State.eq_of_fields {s t : State} (hv : s.v = t.v) (hi : s.i = t.i) (hdt : s.dt = t.dt) (hst : s.st = t.st) (hpc : s.pc = t.pc)
    (hstack : s.stack = t.stack) (hmem : s.mem = t.mem) (hdisp : s.disp = t.disp) (hheld : s.held = t.held) (hp : s.pressQ = t.pressQ)
    (hr : s.relQ = t.relQ) (hf : s.frame = t.frame) (hs : s.status = t.status) (hd : s.draws = t.draws) : s = t := by
  cases s; cases t; simp_all

/-- A register reads back what was written to it. -/
@[simp] theorem State.getV_setV_same (s : State) (x : Nibble) (b : Byte) : (s.setV x b).getV x = b := by
  simp [State.getV, State.setV]

/-- A write to one register leaves every other alone. -/
theorem State.getV_setV_of_ne (s : State) {x r : Nibble} (b : Byte) (h : r ≠ x) : (s.setV x b).getV r = s.getV r := by
  have hne : x.toNat ≠ r.toNat := fun e => h (BitVec.eq_of_toNat_eq e.symm)
  simp [State.getV, State.setV, Vector.getElem_set_ne _ _ hne]

/-- Reading a register after a write to one. -/
theorem State.getV_setV (s : State) (x r : Nibble) (b : Byte) : (s.setV x b).getV r = if r = x then b else s.getV r := by
  split
  · next h => subst h; exact State.getV_setV_same s r b
  · next h => exact State.getV_setV_of_ne s b h

@[simp] theorem State.getV_setI (s : State) (n : Word) (r : Nibble) : (s.setI n).getV r = s.getV r := rfl
@[simp] theorem State.getV_setDT (s : State) (n : Byte) (r : Nibble) : (s.setDT n).getV r = s.getV r := rfl
@[simp] theorem State.getV_setST (s : State) (n : Byte) (r : Nibble) : (s.setST n).getV r = s.getV r := rfl
@[simp] theorem State.getV_setPC (s : State) (n : Word) (r : Nibble) : (s.setPC n).getV r = s.getV r := rfl
@[simp] theorem State.getV_setStack (s : State) (n : List Word) (r : Nibble) : (s.setStack n).getV r = s.getV r := rfl
@[simp] theorem State.getV_setMem (s : State) (n : Memory) (r : Nibble) : (s.setMem n).getV r = s.getV r := rfl
@[simp] theorem State.getV_setDisp (s : State) (n : Display) (r : Nibble) : (s.setDisp n).getV r = s.getV r := rfl
@[simp] theorem State.getV_setHeld (s : State) (n : KeySet) (r : Nibble) : (s.setHeld n).getV r = s.getV r := rfl
@[simp] theorem State.getV_setPressQ (s : State) (n : List KeyId) (r : Nibble) : (s.setPressQ n).getV r = s.getV r := rfl
@[simp] theorem State.getV_setRelQ (s : State) (n : List KeyId) (r : Nibble) : (s.setRelQ n).getV r = s.getV r := rfl
@[simp] theorem State.getV_setFrame (s : State) (n : Option Frame) (r : Nibble) : (s.setFrame n).getV r = s.getV r := rfl
@[simp] theorem State.getV_setStatus (s : State) (n : Status) (r : Nibble) : (s.setStatus n).getV r = s.getV r := rfl
@[simp] theorem State.getV_setDraws (s : State) (n : Nat) (r : Nibble) : (s.setDraws n).getV r = s.getV r := rfl

/-! The widths of 00_scope.md rule R6: each component takes exactly the values of its parameter's width. -/

/-- `REG_BITS`. -/
theorem State.getV_range (r : Nibble) (n : Nat) : (∃ s : State, (s.getV r).toNat = n) ↔ n < 2 ^ Config.regBits :=
  ⟨fun ⟨s, h⟩ => h ▸ (s.getV r).isLt, fun h => ⟨State.reset.setV r (BitVec.ofNat 8 n), by rw [State.getV_setV_same]; exact Nat.mod_eq_of_lt h⟩⟩

/-- `I_BITS`. -/
theorem State.i_range (n : Nat) : (∃ s : State, s.i.toNat = n) ↔ n < 2 ^ Config.iBits :=
  ⟨fun ⟨s, h⟩ => h ▸ s.i.isLt, fun h => ⟨State.reset.setI (BitVec.ofNat 16 n), Nat.mod_eq_of_lt h⟩⟩

/-- `TIMER_BITS`, the delay timer. -/
theorem State.dt_range (n : Nat) : (∃ s : State, s.dt.toNat = n) ↔ n < 2 ^ Config.timerBits :=
  ⟨fun ⟨s, h⟩ => h ▸ s.dt.isLt, fun h => ⟨State.reset.setDT (BitVec.ofNat 8 n), Nat.mod_eq_of_lt h⟩⟩

/-- `TIMER_BITS`, the sound timer. -/
theorem State.st_range (n : Nat) : (∃ s : State, s.st.toNat = n) ↔ n < 2 ^ Config.timerBits :=
  ⟨fun ⟨s, h⟩ => h ▸ s.st.isLt, fun h => ⟨State.reset.setST (BitVec.ofNat 8 n), Nat.mod_eq_of_lt h⟩⟩

/-- `PC_BITS`, the program counter. -/
theorem State.pc_range (n : Nat) : (∃ s : State, s.pc.toNat = n) ↔ n < 2 ^ Config.pcBits :=
  ⟨fun ⟨s, h⟩ => h ▸ s.pc.isLt, fun h => ⟨State.reset.setPC (BitVec.ofNat 16 n), Nat.mod_eq_of_lt h⟩⟩

/-- `PC_BITS`, the return addresses. -/
theorem State.stack_range (n : Nat) : (∃ s : State, ∃ r ∈ s.stack, r.toNat = n) ↔ n < 2 ^ Config.pcBits :=
  ⟨fun ⟨_, r, _, h⟩ => h ▸ r.isLt, fun h => ⟨State.reset.setStack [BitVec.ofNat 16 n], BitVec.ofNat 16 n, by simp, Nat.mod_eq_of_lt h⟩⟩

/-- `INSN_BITS`: the words the fetch reads, from memory, are all the values of that width. -/
theorem insnWord_range (n : Nat) : (∃ hi lo : Byte, (wordOfBytes hi lo).toNat = n) ↔ n < 2 ^ Config.insnBits := by
  refine ⟨fun ⟨hi, lo, h⟩ => h ▸ (wordOfBytes hi lo).isLt, fun h => ⟨highByte (BitVec.ofNat 16 n), lowByte (BitVec.ofNat 16 n), ?_⟩⟩
  rw [wordOfBytes_bytes]
  exact Nat.mod_eq_of_lt h

end Sys2Proof.Machine
end

