-- ==== Sys2Proof/Laws/Memory.lean ====
section
/-! SUPPORT. Memory: read after write, and every memory operation keeps the canonical form (20_memory.md rules R53 to R55). -/

namespace Sys2Proof.Machine

theorem Memory.get_erase_same (m : Memory) (a : Nat) : (m.erase a).get a = Memory.resetByte a := by
  induction m with
  | nil => rfl
  | cons c rest ih =>
    by_cases h : c.1 = a
    · simpa [Memory.erase, h] using ih
    · have : Memory.erase (c :: rest) a = c :: Memory.erase rest a := by simp [Memory.erase, h]
      rw [this]; simp [Memory.get, h, ih]

theorem Memory.get_erase_of_ne (m : Memory) {a a' : Nat} (h : a' ≠ a) : (m.erase a).get a' = m.get a' := by
  induction m with
  | nil => rfl
  | cons c rest ih =>
    by_cases hc : c.1 = a
    · have : Memory.erase (c :: rest) a = Memory.erase rest a := by simp [Memory.erase, hc]
      rw [this, ih, Memory.get, if_neg (by omega)]
    · have : Memory.erase (c :: rest) a = c :: Memory.erase rest a := by simp [Memory.erase, hc]
      rw [this]; simp [Memory.get, ih]

/-- No entry for an address, so it reads as reset left it; what insertion assumes. -/
theorem Memory.mem_erase {m : Memory} {a : Nat} {c : Host.Cell} : c ∈ m.erase a ↔ c ∈ m ∧ c.1 ≠ a := by
  simp [Memory.erase]

theorem Memory.get_insert_same (m : Memory) (a : Nat) (b : Byte) (h : ∀ c ∈ m, c.1 ≠ a) : (m.insert a b).get a = b := by
  induction m with
  | nil => simp [Memory.insert, Memory.get]
  | cons c rest ih =>
    have hc := h c (by simp)
    have := ih (fun d hd => h d (by simp [hd]))
    unfold Memory.insert
    split <;> simp [Memory.get, hc, this]

theorem Memory.get_insert_of_ne (m : Memory) {a a' : Nat} (b : Byte) (h : a' ≠ a) : (m.insert a b).get a' = m.get a' := by
  induction m with
  | nil => simp [Memory.insert, Memory.get, Ne.symm h]
  | cons c rest ih =>
    unfold Memory.insert
    split <;> simp [Memory.get, Ne.symm h, ih]

/-- A read after a write to the same address gives the byte written, whatever the memory. -/
@[simp] theorem Memory.get_put_same (m : Memory) (a : Nat) (b : Byte) : (m.put a b).get a = b := by
  unfold Memory.put
  split
  · next h => rw [Memory.get_erase_same, h]
  · exact Memory.get_insert_same _ a b (fun c hc => (Memory.mem_erase.mp hc).2)

/-- A write leaves every other address alone. -/
theorem Memory.get_put_of_ne (m : Memory) {a a' : Nat} (b : Byte) (h : a' ≠ a) : (m.put a b).get a' = m.get a' := by
  unfold Memory.put
  split
  · exact Memory.get_erase_of_ne m h
  · rw [Memory.get_insert_of_ne _ b h, Memory.get_erase_of_ne m h]

theorem Memory.get_put (m : Memory) (a a' : Nat) (b : Byte) : (m.put a b).get a' = if a' = a then b else m.get a' := by
  split
  · next h => rw [h, Memory.get_put_same]
  · next h => exact Memory.get_put_of_ne m b h

theorem Memory.mem_insert {m : Memory} {a : Nat} {b : Byte} {c : Host.Cell} : c ∈ m.insert a b ↔ c = (a, b) ∨ c ∈ m := by
  induction m with
  | nil => simp [Memory.insert]
  | cons d rest ih =>
    unfold Memory.insert
    split
    · simp
    · simp [ih]; tauto

theorem Memory.pairwise_insert {m : Memory} {a : Nat} (b : Byte) (hp : m.Pairwise (fun c d => c.1 < d.1)) (h : ∀ c ∈ m, c.1 ≠ a) :
    (m.insert a b).Pairwise (fun c d => c.1 < d.1) := by
  induction m with
  | nil => simp [Memory.insert]
  | cons c rest ih =>
    obtain ⟨hc, hrest⟩ := List.pairwise_cons.mp hp
    have hne := h c (by simp)
    unfold Memory.insert
    split
    · next hlt =>
      refine List.pairwise_cons.mpr ⟨fun d hd => ?_, hp⟩
      rcases List.mem_cons.mp hd with rfl | hd
      · exact hlt
      · exact lt_trans hlt (hc d hd)
    · next hge =>
      refine List.pairwise_cons.mpr ⟨fun d hd => ?_, ih hrest (fun d hd => h d (by simp [hd]))⟩
      rcases Memory.mem_insert.mp hd with rfl | hd
      · exact lt_of_le_of_ne (not_lt.mp hge) hne
      · exact hc d hd

/-- What a write lists: the entry written, or one that was there. -/
theorem Memory.mem_put {m : Memory} {a : Nat} {b : Byte} {c : Host.Cell} (h : c ∈ m.put a b) :
    (c = (a, b) ∧ b ≠ Memory.resetByte a) ∨ (c ∈ m ∧ c.1 ≠ a) := by
  unfold Memory.put at h
  split at h
  · exact .inr (Memory.mem_erase.mp h)
  · next hb =>
    rcases Memory.mem_insert.mp h with rfl | h
    · exact .inl ⟨rfl, hb⟩
    · exact .inr (Memory.mem_erase.mp h)

/-- A write to an address that exists keeps the canonical form. -/
theorem Memory.put_wf {m : Memory} {a : Nat} (b : Byte) (hm : m.wf) (ha : a < Config.memSize) : (m.put a b).wf := by
  refine ⟨?_, fun c hc => ?_⟩
  · have hp : (m.erase a).Pairwise (fun c d => c.1 < d.1) := hm.1.filter _
    unfold Memory.put
    split
    · exact hp
    · exact Memory.pairwise_insert b hp (fun c hc => (Memory.mem_erase.mp hc).2)
  · rcases Memory.mem_put hc with ⟨rfl, hb⟩ | ⟨hc, -⟩
    · exact ⟨ha, hb⟩
    · exact hm.2 c hc

/-- A memory that lists nothing is canonical. -/
theorem Memory.wf_nil : Memory.wf [] := by decide

/-- Everything `MemRead(a, 1)` can do (R53). -/
theorem memRead_eq (s : State) (a : Nat) :
    (a < 4095 ∧ memRead s a = .ok (s.mem.get a)) ∨ (4095 ≤ a ∧ memRead s a = .error (.memoryOutOfRange a)) := by
  unfold memRead Config.memSize
  split
  · exact .inl ⟨‹_›, rfl⟩
  · exact .inr ⟨by omega, rfl⟩

/-- Everything `MemRead(a, 2)` can do (R53). -/
theorem memReadWord_eq (s : State) (a : Nat) :
    (a < 4094 ∧ memReadWord s a = .ok (s.mem.get a ++ s.mem.get (a + 1))) ∨
      (4094 ≤ a ∧ memReadWord s a = .error (.memoryOutOfRange a)) := by
  unfold memReadWord Config.memSize
  split
  · exact .inl ⟨by omega, rfl⟩
  · exact .inr ⟨by omega, rfl⟩

/-- Everything `MemWrite(a, 1, b)` can do (R54, R55). -/
theorem memWrite_eq (s : State) (a : Nat) (b : Byte) :
    (a < 512 ∧ memWrite s a b = .error (.memoryProtectionViolation a)) ∨
      (512 ≤ a ∧ a < 4095 ∧ memWrite s a b = .ok (s.setMem (s.mem.put a b))) ∨
      (4095 ≤ a ∧ memWrite s a b = .error (.memoryOutOfRange a)) := by
  unfold memWrite Config.progBase Config.memSize
  split
  · exact .inl ⟨‹_›, rfl⟩
  · split
    · exact .inr (.inl ⟨by omega, ‹_›, rfl⟩)
    · exact .inr (.inr ⟨by omega, rfl⟩)

/-- Installing bytes that fit keeps the canonical form. -/
theorem installBytes_wf {m : Memory} {a : Nat} {bs : List Byte} (hm : m.wf) (h : a + bs.length ≤ Config.memSize) :
    (installBytes m a bs).wf := by
  induction bs generalizing m a with
  | nil => exact hm
  | cons b rest ih =>
    simp only [List.length_cons] at h
    exact ih (Memory.put_wf b hm (by omega)) (by omega)

/-- What installing bytes leaves at an address. -/
theorem get_installBytes (m : Memory) (a a' : Nat) (bs : List Byte) :
    (installBytes m a bs).get a' = if h : a ≤ a' ∧ a' - a < bs.length then bs[a' - a]'h.2 else m.get a' := by
  induction bs generalizing m a with
  | nil => simp [installBytes]
  | cons b rest ih =>
    simp only [installBytes, ih]
    by_cases h1 : a' = a
    · subst h1; simp
    · by_cases h2 : a + 1 ≤ a' ∧ a' - (a + 1) < rest.length
      · have h3 : a ≤ a' ∧ a' - a < (b :: rest).length := by simp only [List.length_cons]; omega
        rw [dif_pos h2, dif_pos h3, List.getElem_cons, dif_neg (by omega)]
        congr 1
      · have h3 : ¬(a ≤ a' ∧ a' - a < (b :: rest).length) := by simp only [List.length_cons]; omega
        rw [dif_neg h2, dif_neg h3, Memory.get_put_of_ne _ _ h1]

/-- A sequence of byte stores that completes has changed memory only: each byte is in its place, every other address is as it was, no
stored address is protected or outside memory. -/
theorem storeBytes_ok {s t : State} {a : Nat} {bs : List Byte} (h : storeBytes s a bs = .ok t) :
    t = s.setMem t.mem ∧ (bs = [] ∨ (512 ≤ a ∧ a + bs.length ≤ 4095)) ∧
      ∀ a', t.mem.get a' = if h : a ≤ a' ∧ a' - a < bs.length then bs[a' - a]'h.2 else s.mem.get a' := by
  induction bs generalizing s a with
  | nil =>
    simp only [storeBytes, Except.ok.injEq] at h
    subst h
    exact ⟨rfl, .inl rfl, by simp⟩
  | cons b rest ih =>
    rcases memWrite_eq s a b with ⟨-, hw⟩ | ⟨hlo, hhi, hw⟩ | ⟨-, hw⟩ <;> simp only [storeBytes, hw] at h
    · exact absurd h (by simp)
    · obtain ⟨he, hr, hg⟩ := ih h
      refine ⟨he, .inr ⟨hlo, ?_⟩, fun a' => ?_⟩
      · rcases hr with rfl | hr
        · simp only [List.length_cons, List.length_nil]; omega
        · simp only [List.length_cons]; omega
      · rw [hg a', State.setMem_mem]
        have := get_installBytes s.mem a a' (b :: rest)
        rw [installBytes, get_installBytes] at this
        exact this
    · exact absurd h (by simp)

/-- When a sequence of byte stores completes. -/
theorem storeBytes_completes (s : State) {a : Nat} {bs : List Byte} (h1 : 512 ≤ a) (h2 : a + bs.length ≤ 4095) :
    ∃ t, storeBytes s a bs = .ok t := by
  induction bs generalizing s a with
  | nil => exact ⟨s, rfl⟩
  | cons b rest ih =>
    simp only [List.length_cons] at h2
    rcases memWrite_eq s a b with ⟨h, -⟩ | ⟨-, -, hw⟩ | ⟨h, -⟩
    · omega
    · simpa only [storeBytes, hw] using ih (s.setMem (s.mem.put a b)) (by omega) (by omega)
    · omega

/-- Which fault a sequence of byte stores raises: below the threshold at its first byte, outside memory at the first byte that does not exist. -/
theorem storeBytes_faults (s : State) {a : Nat} {bs : List Byte} (hb : bs ≠ []) :
    (a < 512 → storeBytes s a bs = .error (.memoryProtectionViolation a)) ∧
      (512 ≤ a → 4095 < a + bs.length → storeBytes s a bs = .error (.memoryOutOfRange (max a 4095))) := by
  induction bs generalizing s a with
  | nil => exact absurd rfl hb
  | cons b rest ih =>
    rcases memWrite_eq s a b with ⟨h, hw⟩ | ⟨h1, h2, hw⟩ | ⟨h, hw⟩
    · exact ⟨fun _ => by simp only [storeBytes, hw], fun h' => by omega⟩
    · refine ⟨fun h' => by omega, fun _ hlen => ?_⟩
      simp only [List.length_cons] at hlen
      have hne : rest ≠ [] := by rintro rfl; simp only [List.length_nil] at hlen; omega
      have := (ih (s.setMem (s.mem.put a b)) (a := a + 1) hne).2 (by omega) (by omega)
      simp only [storeBytes, hw, this]
      congr 2; omega
    · refine ⟨fun h' => by omega, fun _ _ => ?_⟩
      simp only [storeBytes, hw]
      congr 2; omega

/-- A store that completes keeps the canonical form. -/
theorem storeBytes_wf {s t : State} {a : Nat} {bs : List Byte} (h : storeBytes s a bs = .ok t) (hm : s.mem.wf) : t.mem.wf := by
  induction bs generalizing s a with
  | nil => simp only [storeBytes, Except.ok.injEq] at h; exact h ▸ hm
  | cons b rest ih =>
    rcases memWrite_eq s a b with ⟨-, hw⟩ | ⟨-, hhi, hw⟩ | ⟨-, hw⟩ <;> simp only [storeBytes, hw] at h
    · exact absurd h (by simp)
    · exact ih h (Memory.put_wf b hm hhi)
    · exact absurd h (by simp)

/-- A store that completes lists no protected address that was not listed. -/
theorem storeBytes_mem {s t : State} {a : Nat} {bs : List Byte} (h : storeBytes s a bs = .ok t) {c : Host.Cell} (hc : c ∈ t.mem) :
    c ∈ s.mem ∨ 512 ≤ c.1 := by
  induction bs generalizing s a with
  | nil => simp only [storeBytes, Except.ok.injEq] at h; exact .inl (h ▸ hc)
  | cons b rest ih =>
    rcases memWrite_eq s a b with ⟨-, hw⟩ | ⟨hlo, -, hw⟩ | ⟨-, hw⟩ <;> simp only [storeBytes, hw] at h
    · exact absurd h (by simp)
    · rcases ih h with h' | h'
      · rcases Memory.mem_put h' with ⟨rfl, -⟩ | ⟨h', -⟩
        · exact .inr hlo
        · exact .inl h'
      · exact .inr h'
    · exact absurd h (by simp)

end Sys2Proof.Machine
end

