-- ==== Sys2Proof/Laws/Ops.lean ====
section
/-! SUPPORT. One lemma per shared operation: the flag writer, the call stack, the program counter, register loads, the display, the key set,
the operand forms. -/

namespace Sys2Proof.Machine

/-! Registers and flags -/

/-- The flag is written last: `VF` ends holding it, another destination its result, every other register as it was (R23). -/
theorem State.getV_setResultFlag (s : State) (x r : Nibble) (result flag : Byte) :
    (s.setResultFlag x result flag).getV r = if r = flagReg then flag else if r = x then result else s.getV r := by
  simp [State.setResultFlag, Config.vfWriteLast, State.getV_setV]

/-! A flag-writing instruction's two writes change registers only. -/

@[simp] theorem State.setResultFlag_i (s : State) (x : Nibble) (r g : Byte) : (s.setResultFlag x r g).i = s.i := rfl
@[simp] theorem State.setResultFlag_dt (s : State) (x : Nibble) (r g : Byte) : (s.setResultFlag x r g).dt = s.dt := rfl
@[simp] theorem State.setResultFlag_st (s : State) (x : Nibble) (r g : Byte) : (s.setResultFlag x r g).st = s.st := rfl
@[simp] theorem State.setResultFlag_pc (s : State) (x : Nibble) (r g : Byte) : (s.setResultFlag x r g).pc = s.pc := rfl
@[simp] theorem State.setResultFlag_stack (s : State) (x : Nibble) (r g : Byte) : (s.setResultFlag x r g).stack = s.stack := rfl
@[simp] theorem State.setResultFlag_mem (s : State) (x : Nibble) (r g : Byte) : (s.setResultFlag x r g).mem = s.mem := rfl
@[simp] theorem State.setResultFlag_disp (s : State) (x : Nibble) (r g : Byte) : (s.setResultFlag x r g).disp = s.disp := rfl
@[simp] theorem State.setResultFlag_held (s : State) (x : Nibble) (r g : Byte) : (s.setResultFlag x r g).held = s.held := rfl
@[simp] theorem State.setResultFlag_pressQ (s : State) (x : Nibble) (r g : Byte) : (s.setResultFlag x r g).pressQ = s.pressQ := rfl
@[simp] theorem State.setResultFlag_relQ (s : State) (x : Nibble) (r g : Byte) : (s.setResultFlag x r g).relQ = s.relQ := rfl
@[simp] theorem State.setResultFlag_frame (s : State) (x : Nibble) (r g : Byte) : (s.setResultFlag x r g).frame = s.frame := rfl
@[simp] theorem State.setResultFlag_status (s : State) (x : Nibble) (r g : Byte) : (s.setResultFlag x r g).status = s.status := rfl
@[simp] theorem State.setResultFlag_draws (s : State) (x : Nibble) (r g : Byte) : (s.setResultFlag x r g).draws = s.draws := rfl

theorem flagByte_true : flagByte true = 1 := rfl

theorem flagByte_false : flagByte false = 0 := rfl

/-- Two register files that read alike are equal. -/
theorem State.v_ext {s t : State} (h : ∀ r : Nibble, s.getV r = t.getV r) : s.v = t.v := by
  refine Vector.ext fun k hk => ?_
  have := h (BitVec.ofNat 4 k)
  have hk' : k % 2 ^ 4 = k := Nat.mod_eq_of_lt hk
  simpa only [State.getV, BitVec.toNat_ofNat, hk'] using this

/-! Program counter -/

@[simp] theorem State.advance_eq (s : State) : s.advance = s.setPC (s.pc + 2) := rfl

@[simp] theorem State.jump_eq (s : State) (w : Word) : s.jump w = s.setPC w := rfl

@[simp] theorem State.skipIf_eq (s : State) (c : Bool) : s.skipIf c = s.setPC (if c then s.pc + 4 else s.pc + 2) := by
  cases c <;> rfl

@[simp] theorem advanceAfter_ok (s : State) : advanceAfter (.ok s) = .next (s.setPC (s.pc + 2)) := rfl

@[simp] theorem advanceAfter_error (f : Fault) : advanceAfter (.error f) = .fault f := rfl

/-! Call stack -/

@[simp] theorem State.push_eq (s : State) (w : Word) : s.push w = s.setStack (s.stack ++ [w]) := rfl

/-- `pop()` on a stack that is not empty takes its last element. -/
theorem State.pop_of_append {s : State} {rest : List Word} {w : Word} (h : s.stack = rest ++ [w]) :
    s.pop = .ok (w, s.setStack rest) := by
  simp [State.pop, h]

/-- `pop()` on the empty stack underflows. -/
theorem State.pop_of_empty {s : State} (h : s.stack = []) : s.pop = .error (.stackUnderflow s.pc) := by
  simp [State.pop, h]

/-- A pop that succeeds undoes a push. -/
theorem State.pop_ok {s t : State} {w : Word} (h : s.pop = .ok (w, t)) : ∃ rest, s.stack = rest ++ [w] ∧ t = s.setStack rest := by
  rcases List.eq_nil_or_concat s.stack with he | ⟨rest, u, he⟩
  · simp [State.pop_of_empty he] at h
  · rw [List.concat_eq_append] at he
    rw [State.pop_of_append he] at h
    simp only [Except.ok.injEq, Prod.mk.injEq] at h
    exact ⟨rest, h.1 ▸ he, h.2.symm⟩

/-! Register loads -/

/-- Loading `n` registers that completes has changed registers only: each of them holds its byte, the others are as they were. -/
theorem loadRegsFrom_ok {s t : State} {base k n : Nat} (hk : k + n ≤ 16) (h : loadRegsFrom s base k n = .ok t) :
    t = { s with v := t.v } ∧ (n = 0 ∨ base + k + n ≤ 4095) ∧
      ∀ r : Nibble, t.getV r = if k ≤ r.toNat ∧ r.toNat < k + n then s.mem.get (base + r.toNat) else s.getV r := by
  induction n generalizing s k with
  | zero =>
    simp only [loadRegsFrom, Except.ok.injEq] at h
    subst h
    exact ⟨rfl, .inl rfl, fun r => by rw [if_neg (by omega)]⟩
  | succ n ih =>
    rcases memRead_eq s (base + k) with ⟨hlt, hr⟩ | ⟨-, hr⟩ <;> simp only [loadRegsFrom, hr] at h
    · obtain ⟨he, hb, hg⟩ := ih (by omega) h
      refine ⟨?_, .inr (by omega), fun r => ?_⟩
      · rw [he]; rfl
      · have hmem : (s.setV (BitVec.ofNat 4 k) (s.mem.get (base + k))).mem = s.mem := rfl
        rw [hg r, State.getV_setV, hmem]
        have hkn : (BitVec.ofNat 4 k).toNat = k := by simp only [BitVec.toNat_ofNat]; omega
        by_cases hrk : r.toNat = k
        · have : r = BitVec.ofNat 4 k := BitVec.eq_of_toNat_eq (hrk.trans hkn.symm)
          rw [if_neg (by omega), if_pos this, if_pos (by omega), hrk]
        · have : r ≠ BitVec.ofNat 4 k := fun e => hrk (by rw [e, hkn])
          rw [if_neg this]
          split
          · rw [if_pos (by omega)]
          · rw [if_neg (by omega)]
    · exact absurd h (by simp)

/-- When a load of registers completes. -/
theorem loadRegsFrom_completes (s : State) {base k n : Nat} (h : base + k + n ≤ 4095) : ∃ t, loadRegsFrom s base k n = .ok t := by
  induction n generalizing s k with
  | zero => exact ⟨s, rfl⟩
  | succ n ih =>
    rcases memRead_eq s (base + k) with ⟨-, hr⟩ | ⟨hlt, -⟩
    · simpa only [loadRegsFrom, hr] using ih (s.setV (BitVec.ofNat 4 k) (s.mem.get (base + k))) (k := k + 1) (by omega)
    · omega

/-- A load of registers faults at the first byte that does not exist. -/
theorem loadRegsFrom_faults (s : State) {base k n : Nat} (hn : n ≠ 0) (h : 4095 < base + k + n) :
    loadRegsFrom s base k n = .error (.memoryOutOfRange (max (base + k) 4095)) := by
  induction n generalizing s k with
  | zero => exact absurd rfl hn
  | succ n ih =>
    rcases memRead_eq s (base + k) with ⟨hlt, hr⟩ | ⟨hge, hr⟩
    · simp only [loadRegsFrom, hr]
      rw [ih (s.setV (BitVec.ofNat 4 k) (s.mem.get (base + k))) (k := k + 1) (by omega) (by omega)]
      congr 2; omega
    · simp only [loadRegsFrom, hr]
      congr 2; omega

/-! Display -/

/-- A toggle changes one cell, both coordinates wrapped (R181). -/
theorem Display.cell_toggle (d : Display) (x y px py : Nat) :
    Display.cell (Display.toggle d x y) px py =
      if px % 64 = x % 64 ∧ py % 32 = y % 32 then !Display.cell d px py else Display.cell d px py := by
  by_cases hy : y % 32 = py % 32
  · by_cases hx : x % 64 = px % 64
    · simp [Display.cell, Display.toggle, hy, hx]
    · simp [Display.cell, Display.toggle, hy, hx, Ne.symm hx]
  · simp [Display.cell, Display.toggle, hy, Ne.symm hy]

/-- Coordinates are read modulo the display's size. -/
theorem Display.cell_mod (d : Display) (x y : Nat) : Display.cell d (x % 64) (y % 32) = Display.cell d x y := by
  simp [Display.cell]

/-- Two displays with the same cells are the same. -/
theorem Display.ext_cell {d e : Display} (h : ∀ x y, Display.cell d x y = Display.cell e x y) : d = e := by
  refine Vector.ext fun y hy => Vector.ext fun x hx => ?_
  have := h x y
  simpa only [Display.cell, Nat.mod_eq_of_lt hx, Nat.mod_eq_of_lt hy] using this

/-- Every cell of the clear display is off (R180). -/
@[simp] theorem Display.cell_blank (x y : Nat) : Display.cell Display.blank x y = false := by
  simp [Display.cell, Display.blank]

/-- A draw's rows read memory only where it exists; when they do, the draw completes. -/
theorem blitRows_completes (s : State) (x y : Nat) {row n : Nat} (c : Canvas) (h : s.i.toNat + row + n ≤ 4095) :
    ∃ c', blitRows s x y row c n = .ok c' := by
  induction n generalizing row c with
  | zero => exact ⟨c, rfl⟩
  | succ n ih =>
    rcases memRead_eq s (s.i.toNat + row) with ⟨-, hr⟩ | ⟨hlt, -⟩
    · simpa only [blitRows, hr] using ih (row := row + 1) (blitRow (s.mem.get (s.i.toNat + row)) x (y + row) c) (by omega)
    · omega

/-- A draw faults at the first row byte that does not exist (R181). -/
theorem blitRows_faults (s : State) (x y : Nat) {row n : Nat} (c : Canvas) (hn : n ≠ 0) (h : 4095 < s.i.toNat + row + n) :
    blitRows s x y row c n = .error (.memoryOutOfRange (max (s.i.toNat + row) 4095)) := by
  induction n generalizing row c with
  | zero => exact absurd rfl hn
  | succ n ih =>
    rcases memRead_eq s (s.i.toNat + row) with ⟨hlt, hr⟩ | ⟨hge, hr⟩
    · simp only [blitRows, hr]
      rw [ih (row := row + 1) _ (by omega) (by omega)]
      congr 2; omega
    · simp only [blitRows, hr]
      congr 2; omega

/-- One more row of a draw whose byte exists. -/
theorem blitRows_succ (s : State) (x y row n : Nat) (c : Canvas) (h : s.i.toNat + row < 4095) :
    blitRows s x y row c (n + 1) = blitRows s x y (row + 1) (blitRow (s.mem.get (s.i.toNat + row)) x (y + row) c) n := by
  rcases memRead_eq s (s.i.toNat + row) with ⟨-, hr⟩ | ⟨hge, -⟩
  · simp only [blitRows, hr]
  · omega

/-! Key set -/

@[simp] theorem KeySet.holds_of_lt (h : KeySet) (k : KeyId) : KeySet.holds h k.val = h[k.val] := by
  simp [KeySet.holds, k.isLt]

/-- No identifier above 15 is held (R144, R145). -/
theorem KeySet.holds_of_ge (h : KeySet) {k : Nat} (hk : 16 ≤ k) : KeySet.holds h k = false := by
  simp [KeySet.holds, Nat.not_lt.mpr hk]

/-- After the presses a key is held if it was, or if it is among them. -/
theorem KeySet.press_get (h : KeySet) (q : List KeyId) (k : KeyId) :
    (KeySet.press h q)[k.val] = (h[k.val] || decide (k ∈ q)) := by
  induction q generalizing h with
  | nil => simp [KeySet.press]
  | cons j q ih =>
    have := ih (h.set j.val true j.isLt)
    simp only [KeySet.press, List.foldl_cons] at this ⊢
    rw [this]
    by_cases hjk : k = j
    · subst hjk; simp
    · have hv : j.val ≠ k.val := fun e => hjk (Fin.ext e.symm)
      simp [Vector.getElem_set_ne _ _ hv, hjk]

/-- After the releases a key is held if it was and is not among them. -/
theorem KeySet.release_get (h : KeySet) (q : List KeyId) (k : KeyId) :
    (KeySet.release h q)[k.val] = (h[k.val] && !decide (k ∈ q)) := by
  induction q generalizing h with
  | nil => simp [KeySet.release]
  | cons j q ih =>
    have := ih (h.set j.val false j.isLt)
    simp only [KeySet.release, List.foldl_cons] at this ⊢
    rw [this]
    by_cases hjk : k = j
    · subst hjk; simp
    · have hv : j.val ≠ k.val := fun e => hjk (Fin.ext e.symm)
      simp [Vector.getElem_set_ne _ _ hv, hjk]

/-- The lowest held key is held and no lower one is. -/
theorem KeySet.lowest_eq_some {h : KeySet} {k : Nat} :
    KeySet.lowest h = some k ↔ KeySet.holds h k = true ∧ k < 16 ∧ ∀ j < k, KeySet.holds h j = false := by
  simp [KeySet.lowest, List.find?_range_eq_some]

/-- No key is the lowest exactly when none is held. -/
theorem KeySet.lowest_eq_none {h : KeySet} : KeySet.lowest h = none ↔ ∀ k : KeyId, h[k.val] = false := by
  simp only [KeySet.lowest, List.find?_eq_none, List.mem_range, Bool.not_eq_true]
  refine ⟨fun hh k => ?_, fun hh k hk => ?_⟩
  · rw [← KeySet.holds_of_lt]; exact hh k.val k.isLt
  · exact (KeySet.holds_of_lt h ⟨k, hk⟩).trans (hh ⟨k, hk⟩)

/-! Operand forms -/

@[simp] theorem addrOperand_toNat (nnn : Addr) : (addrOperand nnn).toNat = nnn.toNat := by
  have := nnn.isLt
  simp only [addrOperand, BitVec.toNat_setWidth]; omega

@[simp] theorem regOperand16_toNat (s : State) (x : Nibble) : (regOperand16 s x).toNat = (s.getV x).toNat := by
  have := (s.getV x).isLt
  simp only [regOperand16, BitVec.toNat_setWidth]; omega

@[simp] theorem shiftReg_eq (x y : Nibble) : shiftReg x y = x := rfl

/-- The glyph address is five times the register value, without wrap (R172). -/
@[simp] theorem glyphAddr_toNat (v : Byte) : (glyphAddr v).toNat = 5 * v.toNat := by
  have := v.isLt
  simp only [glyphAddr, Config.glyphBase, Config.glyphStride, BitVec.toNat_ofNat]; omega

@[simp] theorem regBlock_length (s : State) (x : Nibble) : (regBlock s x).length = x.toNat + 1 := by
  simp [regBlock]

/-- Entry `k` of the register block is `V[k]`. -/
theorem regBlock_getElem (s : State) (x : Nibble) (k : Nat) (h : k < (regBlock s x).length) :
    (regBlock s x)[k] = s.getV (BitVec.ofNat 4 k) := by
  simp [regBlock]

@[simp] theorem decimalDigits_length (v : Byte) : (decimalDigits v).length = 3 := rfl

end Sys2Proof.Machine
end

