-- ==== Sys2Proof/Laws/Draw.lean ====
section
/-! SUPPORT. What the sequential draw of 45_display.md rule R181 does to the display and the collision, in closed form. -/

namespace Sys2Proof.Machine

/-- A set bit among the first `m` columns of a sprite row lies on the cell `(px, py)`, coordinates wrapped. -/
def RowCovers (b : Byte) (x y : Nat) (m : Nat) (px py : Nat) : Prop :=
  ∃ col, col < m ∧ b.getLsbD (7 - col) = true ∧ (x + col) % 64 = px % 64 ∧ y % 32 = py % 32

open Classical in
/-- Everything the first `m` columns of a sprite row do: the cells under a set bit change and no other does, and the collision is set if it
was or if one of them was on. No cell lies under two columns, so the order of the columns does not show. -/
theorem blitColumns_spec (b : Byte) (x y m : Nat) (hm : m ≤ 8) (c : Canvas) :
    let c' := (List.range m).foldl (fun c col => if b.getLsbD (7 - col) then blitPixel (x + col) y c else c) c
    (∀ px py, Display.cell c'.disp px py = if RowCovers b x y m px py then !Display.cell c.disp px py else Display.cell c.disp px py) ∧
    (c'.collision = true ↔ c.collision = true ∨ ∃ px py, px < 64 ∧ py < 32 ∧ RowCovers b x y m px py ∧ Display.cell c.disp px py = true) := by
  induction m with
  | zero =>
    refine ⟨fun px py => ?_, ?_⟩
    · simp [RowCovers]
    · simp [RowCovers]
  | succ m ih =>
    obtain ⟨ih1, ih2⟩ := ih (by omega)
    simp only [List.range_succ, List.foldl_append, List.foldl_cons, List.foldl_nil]
    set d := (List.range m).foldl (fun c col => if b.getLsbD (7 - col) then blitPixel (x + col) y c else c) c with hd
    have hs : ∀ px py, RowCovers b x y (m+1) px py ↔ RowCovers b x y m px py ∨ (b.getLsbD (7-m) = true ∧ (x+m)%64 = px%64 ∧ y%32 = py%32) := by
      intro px py
      constructor
      · rintro ⟨col, h1, h2⟩
        by_cases h : col = m
        · subst h; exact .inr h2
        · exact .inl ⟨col, by omega, h2⟩
      · rintro (⟨col, h1, h2⟩ | h)
        · exact ⟨col, by omega, h2⟩
        · exact ⟨m, by omega, h⟩
    have hdis : ∀ px py, (x+m)%64 = px%64 → ¬ RowCovers b x y m px py := by
      rintro px py h ⟨col, h1, -, h3, -⟩; omega
    by_cases hb : b.getLsbD (7-m) = true
    · rw [if_pos hb]
      refine ⟨fun px py => ?_, ?_⟩
      · simp only [blitPixel, Display.cell_toggle, ih1]
        by_cases hc : px % 64 = (x+m)%64 ∧ py % 32 = y % 32
        · have h1 := hdis px py hc.1.symm
          rw [if_pos hc, if_neg h1, if_pos ((hs px py).mpr (.inr ⟨hb, hc.1.symm, hc.2.symm⟩))]
        · rw [if_neg hc]
          congr 1
          rw [hs]
          simp only [eq_iff_iff]
          constructor
          · exact .inl
          · rintro (h | h)
            · exact h
            · exact absurd ⟨h.2.1.symm, h.2.2.symm⟩ hc
      · simp only [blitPixel, Bool.or_eq_true, ih2, ih1]
        have h1 := hdis (x+m) y rfl
        rw [if_neg h1]
        constructor
        · rintro ((h | ⟨px, py, a, b', c', d'⟩) | h)
          · exact .inl h
          · exact .inr ⟨px, py, a, b', (hs _ _).mpr (.inl c'), d'⟩
          · exact .inr ⟨(x+m)%64, y%32, Nat.mod_lt _ (by omega), Nat.mod_lt _ (by omega), (hs _ _).mpr (.inr ⟨hb, by omega, by omega⟩), by rw [Display.cell_mod]; exact h⟩
        · rintro (h | ⟨px, py, a, b', c', d'⟩)
          · exact .inl (.inl h)
          · rcases (hs _ _).mp c' with h | h
            · exact .inl (.inr ⟨px, py, a, b', h, d'⟩)
            · right; rw [← Display.cell_mod, h.2.1, h.2.2, Display.cell_mod]; exact d'
    · rw [if_neg hb]
      have : ∀ px py, RowCovers b x y (m+1) px py ↔ RowCovers b x y m px py := by intro px py; rw [hs]; simp [hb]
      simp only [this]
      exact ⟨ih1, ih2⟩

/-- A set bit of one of the `n` sprite rows from `row` on lies on the cell `(px, py)`. -/
def RowsCover (s : State) (x y row n px py : Nat) : Prop :=
  ∃ r, r < n ∧ RowCovers (s.mem.get (s.i.toNat + (row + r))) x (y + (row + r)) 8 px py

open Classical in
/-- Everything a draw whose rows exist does (R181), in the form of `blitColumns_spec`; no cell lies under two rows. -/
theorem blitRows_spec (s : State) (x y : Nat) (n row : Nat) (hn : n ≤ 32) (c c' : Canvas) (h : blitRows s x y row c n = .ok c') :
    (∀ px py, Display.cell c'.disp px py = if RowsCover s x y row n px py then !Display.cell c.disp px py else Display.cell c.disp px py) ∧
    (c'.collision = true ↔ c.collision = true ∨ ∃ px py, px < 64 ∧ py < 32 ∧ RowsCover s x y row n px py ∧ Display.cell c.disp px py = true) := by
  induction n generalizing row c with
  | zero => simp only [blitRows, Except.ok.injEq] at h; subst h; simp [RowsCover]
  | succ n ih =>
    have hlt : s.i.toNat + row < 4095 := by
      by_contra hh
      rw [blitRows_faults s _ _ _ (by omega) (by omega)] at h; cases h
    rw [blitRows_succ _ _ _ _ _ _ hlt] at h
    obtain ⟨i1, i2⟩ := ih (row+1) (by omega) _ h
    obtain ⟨r1, r2⟩ := blitColumns_spec (s.mem.get (s.i.toNat + row)) x (y+row) 8 (by omega) c
    have hs : ∀ px py, RowsCover s x y row (n+1) px py ↔ RowCovers (s.mem.get (s.i.toNat + row)) x (y+row) 8 px py ∨ RowsCover s x y (row+1) n px py := by
      intro px py
      constructor
      · rintro ⟨r, h1, h2⟩
        cases r with
        | zero => exact .inl h2
        | succ r => exact .inr ⟨r, by omega, by rw [show row + 1 + r = row + (r+1) by omega]; exact h2⟩
      · rintro (h | ⟨r, h1, h2⟩)
        · exact ⟨0, by omega, h⟩
        · exact ⟨r+1, by omega, by rw [show row + (r+1) = row + 1 + r by omega]; exact h2⟩
    have hdis : ∀ px py, RowCovers (s.mem.get (s.i.toNat + row)) x (y+row) 8 px py → ¬ RowsCover s x y (row+1) n px py := by
      rintro px py ⟨_, _, _, _, h⟩ ⟨r, hr, _, _, _, _, h'⟩; omega
    have e : blitRow (s.mem.get (s.i.toNat + row)) x (y + row) c = (List.range 8).foldl (fun c col => if (s.mem.get (s.i.toNat + row)).getLsbD (7 - col) then blitPixel (x + col) (y+row) c else c) c := rfl
    rw [← e] at r1 r2
    refine ⟨fun px py => ?_, ?_⟩
    · rw [i1, r1]
      by_cases ha : RowCovers (s.mem.get (s.i.toNat + row)) x (y+row) 8 px py
      · rw [if_neg (hdis _ _ ha), if_pos ha, if_pos ((hs _ _).mpr (.inl ha))]
      · rw [if_neg ha]; simp only [hs, ha, false_or]
    · rw [i2, r2]
      constructor
      · rintro ((h | ⟨px, py, a, b, c', d⟩) | ⟨px, py, a, b, c', d⟩)
        · exact .inl h
        · exact .inr ⟨px, py, a, b, (hs _ _).mpr (.inl c'), d⟩
        · rw [r1] at d
          split at d
          · next h => exact absurd c' (hdis _ _ h)
          · exact .inr ⟨px, py, a, b, (hs _ _).mpr (.inr c'), d⟩
      · rintro (h | ⟨px, py, a, b, c', d⟩)
        · exact .inl (.inl h)
        · rcases (hs _ _).mp c' with h | h
          · exact .inl (.inr ⟨px, py, a, b, h, d⟩)
          · right; refine ⟨px, py, a, b, h, ?_⟩
            rw [r1, if_neg]; exact d
            intro h'; exact hdis _ _ h' h

end Sys2Proof.Machine
end

