-- ==== Sys2Proof/Laws/Exec.lean ====
section
/-! SUPPORT. What each instruction answers, in the state's own field writes: an equation where it always completes, when it completes and what
it then answers where it may fault. Claims about `exec` start from these and need not unfold a meaning. -/

namespace Sys2Proof.Machine

/-! Instructions that always complete -/

theorem exec_sys (nnn : Addr) (s : State) :
    exec (.sys nnn) s = .next (s.setPC (s.pc + 2)) := rfl

theorem exec_cls (s : State) : exec .cls s = .next ((s.setDisp Display.blank).setPC (s.pc + 2)) := rfl

theorem exec_jp (nnn : Addr) (s : State) :
    exec (.jp nnn) s = .next (s.setPC (addrOperand nnn)) := rfl

theorem exec_call (nnn : Addr) (s : State) :
    exec (.call nnn) s = .next ((s.setStack (s.stack ++ [s.pc + 2])).setPC (addrOperand nnn)) := rfl

theorem exec_jpV0 (nnn : Addr) (s : State) :
    exec (.jpV0 nnn) s = .next (s.setPC (addrOperand nnn + regOperand16 s 0)) := rfl

theorem exec_ldImm (x : Nibble) (nn : Byte) (s : State) :
    exec (.ldImm x nn) s = .next ((s.setV x nn).setPC (s.pc + 2)) := rfl

theorem exec_addImm (x : Nibble) (nn : Byte) (s : State) :
    exec (.addImm x nn) s = .next ((s.setV x (s.getV x + nn)).setPC (s.pc + 2)) := rfl

theorem exec_ldReg (x y : Nibble) (s : State) :
    exec (.ldReg x y) s = .next ((s.setV x (s.getV y)).setPC (s.pc + 2)) := rfl

theorem exec_or (x y : Nibble) (s : State) :
    exec (.or x y) s = .next ((s.setV x (s.getV x ||| s.getV y)).setPC (s.pc + 2)) := rfl

theorem exec_and (x y : Nibble) (s : State) :
    exec (.and x y) s = .next ((s.setV x (s.getV x &&& s.getV y)).setPC (s.pc + 2)) := rfl

theorem exec_xor (x y : Nibble) (s : State) :
    exec (.xor x y) s = .next ((s.setV x (s.getV x ^^^ s.getV y)).setPC (s.pc + 2)) := rfl

theorem exec_addReg (x y : Nibble) (s : State) :
    exec (.addReg x y) s = .next ((s.setResultFlag x (s.getV x + s.getV y) (carryFlag (s.getV x) (s.getV y))).setPC (s.pc + 2)) := rfl

theorem exec_sub (x y : Nibble) (s : State) :
    exec (.sub x y) s = .next ((s.setResultFlag x (s.getV x - s.getV y) (noBorrowFlag (s.getV x) (s.getV y))).setPC (s.pc + 2)) := rfl

theorem exec_shr (x y : Nibble) (s : State) :
    exec (.shr x y) s = .next ((s.setResultFlag x (s.getV x >>> 1) (shiftRightFlag (s.getV x))).setPC (s.pc + 2)) := rfl

theorem exec_subn (x y : Nibble) (s : State) :
    exec (.subn x y) s = .next ((s.setResultFlag x (s.getV y - s.getV x) (noBorrowFlag (s.getV y) (s.getV x))).setPC (s.pc + 2)) := rfl

theorem exec_shl (x y : Nibble) (s : State) :
    exec (.shl x y) s = .next ((s.setResultFlag x (s.getV x <<< 1) (shiftLeftFlag (s.getV x))).setPC (s.pc + 2)) := rfl

theorem exec_rnd (x : Nibble) (nn : Byte) (s : State) :
    exec (.rnd x nn) s = .next (((s.setV x (Config.randomByte s.draws &&& nn)).setDraws (s.draws + 1)).setPC (s.pc + 2)) := rfl

theorem exec_ldI (nnn : Addr) (s : State) :
    exec (.ldI nnn) s = .next ((s.setI (addrOperand nnn)).setPC (s.pc + 2)) := rfl

theorem exec_addI (x : Nibble) (s : State) :
    exec (.addI x) s = .next ((s.setI (s.i + regOperand16 s x)).setPC (s.pc + 2)) := rfl

theorem exec_ldF (x : Nibble) (s : State) :
    exec (.ldF x) s = .next ((s.setI (glyphAddr (s.getV x))).setPC (s.pc + 2)) := rfl

theorem exec_ldVxDt (x : Nibble) (s : State) :
    exec (.ldVxDt x) s = .next ((s.setV x s.dt).setPC (s.pc + 2)) := rfl

theorem exec_ldDtVx (x : Nibble) (s : State) :
    exec (.ldDtVx x) s = .next ((s.setDT (s.getV x)).setPC (s.pc + 2)) := rfl

theorem exec_ldStVx (x : Nibble) (s : State) :
    exec (.ldStVx x) s = .next ((s.setST (s.getV x)).setPC (s.pc + 2)) := rfl

theorem exec_seImm (x : Nibble) (nn : Byte) (s : State) :
    exec (.seImm x nn) s = .next (s.setPC (if s.getV x == nn then s.pc + 4 else s.pc + 2)) :=
  congrArg _ (State.skipIf_eq s _)

theorem exec_sneImm (x : Nibble) (nn : Byte) (s : State) :
    exec (.sneImm x nn) s = .next (s.setPC (if s.getV x != nn then s.pc + 4 else s.pc + 2)) :=
  congrArg _ (State.skipIf_eq s _)

theorem exec_seReg (x y : Nibble) (s : State) :
    exec (.seReg x y) s = .next (s.setPC (if s.getV x == s.getV y then s.pc + 4 else s.pc + 2)) :=
  congrArg _ (State.skipIf_eq s _)

theorem exec_sneReg (x y : Nibble) (s : State) :
    exec (.sneReg x y) s = .next (s.setPC (if s.getV x != s.getV y then s.pc + 4 else s.pc + 2)) :=
  congrArg _ (State.skipIf_eq s _)

theorem exec_skp (x : Nibble) (s : State) :
    exec (.skp x) s = .next (s.setPC (if KeySet.holds s.held (s.getV x).toNat then s.pc + 4 else s.pc + 2)) :=
  congrArg _ (State.skipIf_eq s _)

theorem exec_sknp (x : Nibble) (s : State) :
    exec (.sknp x) s = .next (s.setPC (if !KeySet.holds s.held (s.getV x).toNat then s.pc + 4 else s.pc + 2)) :=
  congrArg _ (State.skipIf_eq s _)

/-- With a key held, the lowest one goes to the register (R191). -/
theorem exec_ldVxK_some {x : Nibble} {s : State} {k : Nat} (h : KeySet.lowest s.held = some k) :
    exec (.ldVxK x) s = .next ((s.setV x (BitVec.ofNat 8 k)).setPC (s.pc + 2)) := by
  simp only [exec, execLdVxK, keyWait, h, State.advance_eq, State.setV_pc]

/-- With no key held, only the program counter moves (R191). -/
theorem exec_ldVxK_none {x : Nibble} {s : State} (h : KeySet.lowest s.held = none) :
    exec (.ldVxK x) s = .next (s.setPC (s.pc + 2)) := by
  simp only [exec, execLdVxK, keyWait, h, State.advance_eq]

/-! Instructions that may fault -/

theorem exec_ret_of_empty {s : State} (h : s.stack = []) : exec .ret s = .fault (.stackUnderflow s.pc) := by
  simp only [exec, execRet, State.pop_of_empty h]

theorem exec_ret_of_append {s : State} {rest : List Word} {a : Word} (h : s.stack = rest ++ [a]) :
    exec .ret s = .next ((s.setStack rest).setPC a) := by
  simp only [exec, execRet, State.pop_of_append h, State.jump_eq]

/-- A return that completes had a return address to pop. -/
theorem exec_ret_next {s t : State} (h : exec .ret s = .next t) : ∃ rest a, s.stack = rest ++ [a] ∧ t = (s.setStack rest).setPC a := by
  rcases List.eq_nil_or_concat s.stack with he | ⟨rest, a, he⟩
  · rw [exec_ret_of_empty he] at h; exact absurd h (by simp)
  · rw [List.concat_eq_append] at he
    rw [exec_ret_of_append he] at h
    exact ⟨rest, a, he, (Host.Outcome.next.inj h).symm⟩

/-- The address both stores and the block load start from is `I`. -/
@[simp] theorem effAddr_zero (s : State) : effAddr s 0 = s.i.toNat := rfl

/-- A decimal store is the store of its three digits. -/
theorem exec_ldB (x : Nibble) (s : State) :
    exec (.ldB x) s = advanceAfter (storeBytes s s.i.toNat (decimalDigits (s.getV x))) := rfl

/-- A block store is the store of the registers' values. -/
theorem exec_storeRegs (x : Nibble) (s : State) :
    exec (.storeRegs x) s = advanceAfter (storeBytes s s.i.toNat (regBlock s x)) := rfl

/-- A block load. -/
theorem exec_loadRegs (x : Nibble) (s : State) :
    exec (.loadRegs x) s = advanceAfter (loadRegsFrom s s.i.toNat 0 (x.toNat + 1)) := rfl

/-- An operation that may fault, followed by the default advance, answers a next state only if it succeeds. -/
theorem advanceAfter_next {e : Except Fault State} {t : State} (h : advanceAfter e = .next t) :
    ∃ u, e = .ok u ∧ t = u.setPC (u.pc + 2) := by
  cases e with
  | ok u => exact ⟨u, rfl, (Host.Outcome.next.inj h).symm⟩
  | error f => exact absurd h (by simp)

/-- A store that completes: what it stored, and that only memory and the program counter changed. -/
theorem store_next {s t : State} {a : Nat} {bs : List Byte} (h : advanceAfter (storeBytes s a bs) = .next t) :
    ∃ u, storeBytes s a bs = .ok u ∧ t = (s.setMem u.mem).setPC (s.pc + 2) := by
  obtain ⟨u, hu, rfl⟩ := advanceAfter_next h
  refine ⟨u, hu, ?_⟩
  have hmem := (storeBytes_ok hu).1
  rw [hmem]; rfl

/-- A block load that completes: only registers and the program counter changed. -/
theorem exec_loadRegs_next {x : Nibble} {s t : State} (h : exec (.loadRegs x) s = .next t) :
    ∃ u, loadRegsFrom s s.i.toNat 0 (x.toNat + 1) = .ok u ∧ t = { s with v := u.v, pc := s.pc + 2 } := by
  obtain ⟨u, hu, rfl⟩ := advanceAfter_next h
  have hx := x.isLt
  have hreg := (loadRegsFrom_ok (by omega) hu).1
  refine ⟨u, hu, ?_⟩
  rw [hreg]; rfl

/-- A draw that completes: the display and the collision its rows gave. -/
theorem exec_drw_ok {x y n : Nibble} {s : State} {c : Canvas}
    (h : blitRows s (s.getV x).toNat (s.getV y).toNat 0 { disp := s.disp, collision := false } n.toNat = .ok c) :
    exec (.drw x y n) s = .next (((s.setDisp c.disp).setV flagReg (collisionFlag c)).setPC (s.pc + 2)) := by
  simp only [exec, execDrw, h, State.advance_eq, State.setV_pc, State.setDisp_pc]

theorem exec_drw_error {x y n : Nibble} {s : State} {f : Fault}
    (h : blitRows s (s.getV x).toNat (s.getV y).toNat 0 { disp := s.disp, collision := false } n.toNat = .error f) :
    exec (.drw x y n) s = .fault f := by
  simp only [exec, execDrw, h]

theorem exec_drw_next {x y n : Nibble} {s t : State} (h : exec (.drw x y n) s = .next t) :
    ∃ c, blitRows s (s.getV x).toNat (s.getV y).toNat 0 { disp := s.disp, collision := false } n.toNat = .ok c ∧
      t = ((s.setDisp c.disp).setV flagReg (collisionFlag c)).setPC (s.pc + 2) := by
  cases hb : blitRows s (s.getV x).toNat (s.getV y).toNat 0 { disp := s.disp, collision := false } n.toNat with
  | ok c => rw [exec_drw_ok hb] at h; exact ⟨c, rfl, (Host.Outcome.next.inj h).symm⟩
  | error f => rw [exec_drw_error hb] at h; exact absurd h (by simp)

end Sys2Proof.Machine
end

