-- ==== Sys2Proof/Laws/PerInstr.lean ====
section
/-! SUPPORT. Per instruction: the family nibble of its word (30_encoding.md rule R90, column "pattern"). -/

namespace Sys2Proof.Laws.EncodedFamily

/-- The family of each operation, the first digit of its pattern in R90. -/
def familyOf : Instr → Nat
  | .sys _ => 0x0
  | .cls => 0x0
  | .ret => 0x0
  | .jp _ => 0x1
  | .call _ => 0x2
  | .seImm _ _ => 0x3
  | .sneImm _ _ => 0x4
  | .seReg _ _ => 0x5
  | .ldImm _ _ => 0x6
  | .addImm _ _ => 0x7
  | .ldReg _ _ => 0x8
  | .or _ _ => 0x8
  | .and _ _ => 0x8
  | .xor _ _ => 0x8
  | .addReg _ _ => 0x8
  | .sub _ _ => 0x8
  | .shr _ _ => 0x8
  | .subn _ _ => 0x8
  | .shl _ _ => 0x8
  | .sneReg _ _ => 0x9
  | .ldI _ => 0xA
  | .jpV0 _ => 0xB
  | .rnd _ _ => 0xC
  | .drw _ _ _ => 0xD
  | .skp _ => 0xE
  | .sknp _ => 0xE
  | .ldVxDt _ => 0xF
  | .ldVxK _ => 0xF
  | .ldDtVx _ => 0xF
  | .ldStVx _ => 0xF
  | .addI _ => 0xF
  | .ldF _ => 0xF
  | .ldB _ => 0xF
  | .storeRegs _ => 0xF
  | .loadRegs _ => 0xF

/-- The high nibble of an instruction's word is its family (R82: "high nibble selects the instruction family"). -/
def Statement (i : Instr) : Prop := (fieldF (encode i)).toNat = familyOf i

theorem sys (nnn : Addr) : Statement (.sys nnn) := by
  have := nnn.isLt
  rw [Statement, fieldF_toNat, encode, wordA_toNat 0x0#4 nnn]
  simp only [familyOf, BitVec.toNat_ofNat]; omega

theorem cls : Statement (.cls) := rfl

theorem ret : Statement (.ret) := rfl

theorem jp (nnn : Addr) : Statement (.jp nnn) := by
  have := nnn.isLt
  rw [Statement, fieldF_toNat, encode, wordA_toNat 0x1#4 nnn]
  simp only [familyOf, BitVec.toNat_ofNat]; omega

theorem call (nnn : Addr) : Statement (.call nnn) := by
  have := nnn.isLt
  rw [Statement, fieldF_toNat, encode, wordA_toNat 0x2#4 nnn]
  simp only [familyOf, BitVec.toNat_ofNat]; omega

theorem seImm (x : Nibble) (nn : Byte) : Statement (.seImm x nn) := by
  have := x.isLt; have := nn.isLt
  rw [Statement, fieldF_toNat, encode, wordXI_toNat 0x3#4 x nn]
  simp only [familyOf, BitVec.toNat_ofNat]; omega

theorem sneImm (x : Nibble) (nn : Byte) : Statement (.sneImm x nn) := by
  have := x.isLt; have := nn.isLt
  rw [Statement, fieldF_toNat, encode, wordXI_toNat 0x4#4 x nn]
  simp only [familyOf, BitVec.toNat_ofNat]; omega

theorem seReg (x : Nibble) (y : Nibble) : Statement (.seReg x y) := by
  have := x.isLt; have := y.isLt
  rw [Statement, fieldF_toNat, encode, wordXYN_toNat 0x5#4 x y 0x0#4]
  simp only [familyOf, BitVec.toNat_ofNat]; omega

theorem ldImm (x : Nibble) (nn : Byte) : Statement (.ldImm x nn) := by
  have := x.isLt; have := nn.isLt
  rw [Statement, fieldF_toNat, encode, wordXI_toNat 0x6#4 x nn]
  simp only [familyOf, BitVec.toNat_ofNat]; omega

theorem addImm (x : Nibble) (nn : Byte) : Statement (.addImm x nn) := by
  have := x.isLt; have := nn.isLt
  rw [Statement, fieldF_toNat, encode, wordXI_toNat 0x7#4 x nn]
  simp only [familyOf, BitVec.toNat_ofNat]; omega

theorem ldReg (x : Nibble) (y : Nibble) : Statement (.ldReg x y) := by
  have := x.isLt; have := y.isLt
  rw [Statement, fieldF_toNat, encode, wordXYN_toNat 0x8#4 x y 0x0#4]
  simp only [familyOf, BitVec.toNat_ofNat]; omega

theorem or (x : Nibble) (y : Nibble) : Statement (.or x y) := by
  have := x.isLt; have := y.isLt
  rw [Statement, fieldF_toNat, encode, wordXYN_toNat 0x8#4 x y 0x1#4]
  simp only [familyOf, BitVec.toNat_ofNat]; omega

theorem and (x : Nibble) (y : Nibble) : Statement (.and x y) := by
  have := x.isLt; have := y.isLt
  rw [Statement, fieldF_toNat, encode, wordXYN_toNat 0x8#4 x y 0x2#4]
  simp only [familyOf, BitVec.toNat_ofNat]; omega

theorem xor (x : Nibble) (y : Nibble) : Statement (.xor x y) := by
  have := x.isLt; have := y.isLt
  rw [Statement, fieldF_toNat, encode, wordXYN_toNat 0x8#4 x y 0x3#4]
  simp only [familyOf, BitVec.toNat_ofNat]; omega

theorem addReg (x : Nibble) (y : Nibble) : Statement (.addReg x y) := by
  have := x.isLt; have := y.isLt
  rw [Statement, fieldF_toNat, encode, wordXYN_toNat 0x8#4 x y 0x4#4]
  simp only [familyOf, BitVec.toNat_ofNat]; omega

theorem sub (x : Nibble) (y : Nibble) : Statement (.sub x y) := by
  have := x.isLt; have := y.isLt
  rw [Statement, fieldF_toNat, encode, wordXYN_toNat 0x8#4 x y 0x5#4]
  simp only [familyOf, BitVec.toNat_ofNat]; omega

theorem shr (x : Nibble) (y : Nibble) : Statement (.shr x y) := by
  have := x.isLt; have := y.isLt
  rw [Statement, fieldF_toNat, encode, wordXYN_toNat 0x8#4 x y 0x6#4]
  simp only [familyOf, BitVec.toNat_ofNat]; omega

theorem subn (x : Nibble) (y : Nibble) : Statement (.subn x y) := by
  have := x.isLt; have := y.isLt
  rw [Statement, fieldF_toNat, encode, wordXYN_toNat 0x8#4 x y 0x7#4]
  simp only [familyOf, BitVec.toNat_ofNat]; omega

theorem shl (x : Nibble) (y : Nibble) : Statement (.shl x y) := by
  have := x.isLt; have := y.isLt
  rw [Statement, fieldF_toNat, encode, wordXYN_toNat 0x8#4 x y 0xE#4]
  simp only [familyOf, BitVec.toNat_ofNat]; omega

theorem sneReg (x : Nibble) (y : Nibble) : Statement (.sneReg x y) := by
  have := x.isLt; have := y.isLt
  rw [Statement, fieldF_toNat, encode, wordXYN_toNat 0x9#4 x y 0x0#4]
  simp only [familyOf, BitVec.toNat_ofNat]; omega

theorem ldI (nnn : Addr) : Statement (.ldI nnn) := by
  have := nnn.isLt
  rw [Statement, fieldF_toNat, encode, wordA_toNat 0xA#4 nnn]
  simp only [familyOf, BitVec.toNat_ofNat]; omega

theorem jpV0 (nnn : Addr) : Statement (.jpV0 nnn) := by
  have := nnn.isLt
  rw [Statement, fieldF_toNat, encode, wordA_toNat 0xB#4 nnn]
  simp only [familyOf, BitVec.toNat_ofNat]; omega

theorem rnd (x : Nibble) (nn : Byte) : Statement (.rnd x nn) := by
  have := x.isLt; have := nn.isLt
  rw [Statement, fieldF_toNat, encode, wordXI_toNat 0xC#4 x nn]
  simp only [familyOf, BitVec.toNat_ofNat]; omega

theorem drw (x : Nibble) (y : Nibble) (n : Nibble) : Statement (.drw x y n) := by
  have := x.isLt; have := y.isLt; have := n.isLt
  rw [Statement, fieldF_toNat, encode, wordXYN_toNat 0xD#4 x y n]
  simp only [familyOf, BitVec.toNat_ofNat]; omega

theorem skp (x : Nibble) : Statement (.skp x) := by
  have := x.isLt
  rw [Statement, fieldF_toNat, encode, wordXI_toNat 0xE#4 x 0x9E#8]
  simp only [familyOf, BitVec.toNat_ofNat]; omega

theorem sknp (x : Nibble) : Statement (.sknp x) := by
  have := x.isLt
  rw [Statement, fieldF_toNat, encode, wordXI_toNat 0xE#4 x 0xA1#8]
  simp only [familyOf, BitVec.toNat_ofNat]; omega

theorem ldVxDt (x : Nibble) : Statement (.ldVxDt x) := by
  have := x.isLt
  rw [Statement, fieldF_toNat, encode, wordXI_toNat 0xF#4 x 0x07#8]
  simp only [familyOf, BitVec.toNat_ofNat]; omega

theorem ldVxK (x : Nibble) : Statement (.ldVxK x) := by
  have := x.isLt
  rw [Statement, fieldF_toNat, encode, wordXI_toNat 0xF#4 x 0x0A#8]
  simp only [familyOf, BitVec.toNat_ofNat]; omega

theorem ldDtVx (x : Nibble) : Statement (.ldDtVx x) := by
  have := x.isLt
  rw [Statement, fieldF_toNat, encode, wordXI_toNat 0xF#4 x 0x15#8]
  simp only [familyOf, BitVec.toNat_ofNat]; omega

theorem ldStVx (x : Nibble) : Statement (.ldStVx x) := by
  have := x.isLt
  rw [Statement, fieldF_toNat, encode, wordXI_toNat 0xF#4 x 0x18#8]
  simp only [familyOf, BitVec.toNat_ofNat]; omega

theorem addI (x : Nibble) : Statement (.addI x) := by
  have := x.isLt
  rw [Statement, fieldF_toNat, encode, wordXI_toNat 0xF#4 x 0x1E#8]
  simp only [familyOf, BitVec.toNat_ofNat]; omega

theorem ldF (x : Nibble) : Statement (.ldF x) := by
  have := x.isLt
  rw [Statement, fieldF_toNat, encode, wordXI_toNat 0xF#4 x 0x29#8]
  simp only [familyOf, BitVec.toNat_ofNat]; omega

theorem ldB (x : Nibble) : Statement (.ldB x) := by
  have := x.isLt
  rw [Statement, fieldF_toNat, encode, wordXI_toNat 0xF#4 x 0x33#8]
  simp only [familyOf, BitVec.toNat_ofNat]; omega

theorem storeRegs (x : Nibble) : Statement (.storeRegs x) := by
  have := x.isLt
  rw [Statement, fieldF_toNat, encode, wordXI_toNat 0xF#4 x 0x55#8]
  simp only [familyOf, BitVec.toNat_ofNat]; omega

theorem loadRegs (x : Nibble) : Statement (.loadRegs x) := by
  have := x.isLt
  rw [Statement, fieldF_toNat, encode, wordXI_toNat 0xF#4 x 0x65#8]
  simp only [familyOf, BitVec.toNat_ofNat]; omega

end Sys2Proof.Laws.EncodedFamily
end

