-- ==== Sys2Proof/Laws/Step.lean ====
section
/-! SUPPORT. What a tick can do, said once: every claim about `step` starts from these. -/

namespace Sys2Proof.Machine

@[simp] theorem aggregate_mem (s : State) : (aggregate s).mem = s.mem := rfl
@[simp] theorem aggregate_pc (s : State) : (aggregate s).pc = s.pc := rfl
@[simp] theorem aggregate_stack (s : State) : (aggregate s).stack = s.stack := rfl
@[simp] theorem aggregate_status (s : State) : (aggregate s).status = s.status := rfl
@[simp] theorem aggregate_pressQ (s : State) : (aggregate s).pressQ = [] := rfl
@[simp] theorem aggregate_relQ (s : State) : (aggregate s).relQ = [] := rfl
@[simp] theorem fetch_aggregate (s : State) : fetch (aggregate s) = fetch s := rfl

/-- Held after aggregation: held before or pressed, and not released (R212). -/
theorem aggregate_held_get (s : State) (k : KeyId) :
    (aggregate s).held[k.val] = ((s.held[k.val] || decide (k ∈ s.pressQ)) && !decide (k ∈ s.relQ)) := by
  simp only [aggregate, State.setRelQ_held, State.setPressQ_held, State.setHeld_held, KeySet.release_get, KeySet.press_get]

/-- Everything the fetch can do (R110). -/
theorem fetch_eq (s : State) :
    (s.pc.toNat < 4094 ∧ fetch s = .ok (s.mem.get s.pc.toNat ++ s.mem.get (s.pc.toNat + 1))) ∨
      (4094 ≤ s.pc.toNat ∧ fetch s = .error (.memoryOutOfRange s.pc.toNat)) :=
  memReadWord_eq s s.pc.toNat

/-- A tick gives a next state exactly when the machine runs and its instruction is fetched, decoded and executed without a fault; the state is
then that of the instruction, with the timers decremented and the frame published (R213). -/
theorem step_next_iff {s t : State} :
    step s = .next t ↔ s.status = .running ∧ ∃ w i u, fetch s = .ok w ∧ decode w = .ok i ∧ exec i (aggregate s) = .next u ∧
      t = publish (decrementTimers u) := by
  unfold step tick
  cases hs : s.status with
  | halted f => simp
  | running =>
    simp only [coreStep, fetch_aggregate, true_and]
    cases hf : fetch s with
    | error f => simp
    | ok w =>
      cases hd : decode w with
      | error e => simp [hd]
      | ok i =>
        cases he : exec i (aggregate s) with
        | next u => simp [hd, he, eq_comm]
        | fault f => simp [hd, he]
        | refused r => simp [hd, he]

/-- A tick of a running machine whose word is decoded. -/
theorem step_of_decode {s : State} {w : Word} {i : Instr} (hs : s.status = .running) (hf : fetch s = .ok w) (hd : decode w = .ok i) :
    step s = match exec i (aggregate s) with
      | .next u => .next (publish (decrementTimers u))
      | .fault f => .fault f
      | .refused r => .refused r := by
  simp only [step, tick, hs, coreStep, fetch_aggregate, hf, hd]
  cases exec i (aggregate s) <;> rfl

/-- A tick of a halted machine. -/
theorem step_of_halted {s : State} {f : Fault} (hs : s.status = .halted f) : step s = .fault f := by
  simp only [step, tick, hs]

/-- A tick whose fetch faults. -/
theorem step_of_fetch_fault {s : State} {f : Fault} (hs : s.status = .running) (hf : fetch s = .error f) : step s = .fault f := by
  simp only [step, tick, hs, coreStep, fetch_aggregate, hf]

/-- A tick whose word is malformed. -/
theorem step_of_malformed {s : State} {w : Word} {e : DecodeError} (hs : s.status = .running) (hf : fetch s = .ok w)
    (hd : decode w = .error e) : step s = .fault (.malformedInstruction w) := by
  simp only [step, tick, hs, coreStep, fetch_aggregate, hf, hd]

@[simp] theorem timerDown_toNat (t : Byte) : (timerDown t).toNat = t.toNat - 1 := by
  unfold timerDown
  split
  · next h => subst h; rfl
  · next h =>
    have h0 : t.toNat ≠ 0 := fun e => h (BitVec.eq_of_toNat_eq e)
    have := t.isLt
    have h1 : (1 : Byte).toNat = 1 := rfl
    simp only [BitVec.toNat_sub, h1]; omega

end Sys2Proof.Machine
end

