-- ==== Sys2Proof/Tests/Slice0.lean ====
section
/-! SUPPORT. The model's own tests: ill-formed terms, words written out bit by bit, one step of each instruction, faults, the scheduler, reset.
Expected values are those of spec/95_test_vectors.md (the vector's id stands in each docstring) or of the instruction's own rule. -/

namespace Sys2Proof.Tests

open Sys2Proof.Machine

/-! Helpers -/

/-- The state after one step from reset with the word at 0x200 and the overrides given. -/
def after (w : Nat) (f : State → State := id) : Option State :=
  match step ((f State.reset).withFetchWord 16 w) with
  | .next t => some t
  | .fault _ => none
  | .refused _ => none

/-- The fault of that step. -/
def stop (w : Nat) (f : State → State := id) : Option Fault :=
  match step ((f State.reset).withFetchWord 16 w) with
  | .next _ => none
  | .fault r => some r
  | .refused _ => none

/-- Overrides of registers. -/
def regs (rs : List (Nibble × Byte)) (s : State) : State := rs.foldl (fun s r => s.setV r.1 r.2) s

/-- An override of `I` after one of registers. -/
def regsI (rs : List (Nibble × Byte)) (i : Word) (s : State) : State := (regs rs s).setI i

/-- An override of memory bytes. -/
def bytesAt (a : Nat) (bs : List Byte) (s : State) : State := s.setMem (installBytes s.mem a bs)

/-- The press events of the keys given, waiting in the queue. -/
def pressing (ks : List KeyId) (s : State) : State := s.setPressQ ks

/-- The fault of a tick from a state. -/
def faultOf (s : State) : Option Fault :=
  match step s with
  | .next _ => none
  | .fault r => some r
  | .refused _ => none

/-- The columns of a display row that are on. -/
def onInRow (d : Display) (y : Nat) : List Nat := (List.range 64).filter (fun x => Display.cell d x y)

/-! Well-formedness: the two operations no word expresses (R91) -/

theorem test_sys_cls_ill_formed : (Instr.sys 0x0E0).wellFormed = false := by decide
theorem test_sys_ret_ill_formed : (Instr.sys 0x0EE).wellFormed = false := by decide
theorem test_sys_well_formed : (Instr.sys 0x0E1).wellFormed = true ∧ Instr.cls.wellFormed = true := by decide

/-! Decoding: one word of every constructor, written out from R90's pattern, fields of distinct bits -/

theorem test_decode_family0 :
    decodeTableWord 16 0b0000000011100000 = some .cls ∧ decodeTableWord 16 0b0000000011101110 = some .ret ∧
    decodeTableWord 16 0b0000000100100011 = some (.sys 0x123) ∧ decodeTableWord 16 0b0000000000000000 = some (.sys 0x000) ∧
    decodeTableWord 16 0b0000000011100001 = some (.sys 0x0E1) := by decide
theorem test_decode_addresses :
    decodeTableWord 16 0b0001101010111100 = some (.jp 0xABC) ∧ decodeTableWord 16 0b0010111111111110 = some (.call 0xFFE) ∧
    decodeTableWord 16 0b1010000100100011 = some (.ldI 0x123) ∧ decodeTableWord 16 0b1011001000000000 = some (.jpV0 0x200) := by decide
theorem test_decode_immediates :
    decodeTableWord 16 0b0011101001000010 = some (.seImm 10 0x42) ∧ decodeTableWord 16 0b0100111100000000 = some (.sneImm 15 0x00) ∧
    decodeTableWord 16 0b0110110001111111 = some (.ldImm 12 0x7F) ∧ decodeTableWord 16 0b0111000011111111 = some (.addImm 0 0xFF) ∧
    decodeTableWord 16 0b1100000100001111 = some (.rnd 1 0x0F) := by decide
theorem test_decode_family5_ignores_low_nibble :
    decodeTableWord 16 0b0101000100100000 = some (.seReg 1 2) ∧ decodeTableWord 16 0b0101000100101111 = some (.seReg 1 2) := by decide
theorem test_decode_family8_low :
    decodeTableWord 16 0b1000101010110000 = some (.ldReg 10 11) ∧ decodeTableWord 16 0b1000101010110001 = some (.or 10 11) ∧
    decodeTableWord 16 0b1000101010110010 = some (.and 10 11) ∧ decodeTableWord 16 0b1000101010110011 = some (.xor 10 11) ∧
    decodeTableWord 16 0b1000101010110100 = some (.addReg 10 11) := by decide
theorem test_decode_family8_high :
    decodeTableWord 16 0b1000101010110101 = some (.sub 10 11) ∧ decodeTableWord 16 0b1000101010110110 = some (.shr 10 11) ∧
    decodeTableWord 16 0b1000101010110111 = some (.subn 10 11) ∧ decodeTableWord 16 0b1000101010111110 = some (.shl 10 11) := by decide
theorem test_decode_families_9_d_e :
    decodeTableWord 16 0b1001101010110000 = some (.sneReg 10 11) ∧ decodeTableWord 16 0b1101011110100101 = some (.drw 7 10 5) ∧
    decodeTableWord 16 0b1110001110011110 = some (.skp 3) ∧ decodeTableWord 16 0b1110001110100001 = some (.sknp 3) := by decide
theorem test_decode_familyF_low :
    decodeTableWord 16 0b1111010100000111 = some (.ldVxDt 5) ∧ decodeTableWord 16 0b1111010100001010 = some (.ldVxK 5) ∧
    decodeTableWord 16 0b1111010100010101 = some (.ldDtVx 5) ∧ decodeTableWord 16 0b1111010100011000 = some (.ldStVx 5) := by decide
theorem test_decode_familyF_high :
    decodeTableWord 16 0b1111010100011110 = some (.addI 5) ∧ decodeTableWord 16 0b1111010100101001 = some (.ldF 5) ∧
    decodeTableWord 16 0b1111010100110011 = some (.ldB 5) ∧ decodeTableWord 16 0b1111010101010101 = some (.storeRegs 5) ∧
    decodeTableWord 16 0b1111010101100101 = some (.loadRegs 5) := by decide
/-- Vectors E24, E26, E34, E44, E45. -/
theorem test_decode_refuses :
    [0x8AB8, 0x8ABF, 0x9AB1, 0x9ABF, 0xE39F, 0xE300, 0xF517, 0xF505, 0xF575, 0xF530, 0xFFFF].all
      (fun w => decodeTableWord 16 w == none) = true := by decide
theorem test_decode_names_the_word :
    decode 0x8AB8 = .error (.malformedInstruction 0x8AB8) ∧ decodeBytes [0x12] = .error .truncated := by decide

/-! Control flow -/

/-- F1. -/
theorem test_sys : (after 0x0123).map (fun t => (t.pc, t.stack)) = some (0x202, []) := by decide
/-- F3. -/
theorem test_ret : (after 0x00EE (·.setStack [0x300, 0xABC])).map (fun t => (t.pc, t.stack)) = some (0xABC, [0x300]) := by decide
/-- F4. -/
theorem test_ret_underflow : stop 0x00EE = some (.stackUnderflow 0x200) := by decide
/-- F5. -/
theorem test_jp : (after 0x1ABC).map (·.pc) = some 0xABC := by decide
/-- F9. -/
theorem test_call : (after 0x2300).map (fun t => (t.pc, t.stack)) = some (0x300, [0x202]) := by decide
/-- F10: an odd program counter. -/
theorem test_call_odd_pc : (after 0x2300 (·.setPC 0xABD)).map (fun t => (t.pc, t.stack)) = some (0x300, [0xABF]) := by decide
/-- F8: no reduction to 12 bits. -/
theorem test_jpV0 : (after 0xBFFF (regs [(0, 0xFF)])).map (·.pc) = some 0x10FE := by decide

/-! Skips -/

/-- G1, G2. -/
theorem test_seImm : (after 0x332A (regs [(3, 0x2A)])).map (·.pc) = some 0x204 ∧ (after 0x332A (regs [(3, 0x2B)])).map (·.pc) = some 0x202 := by
  decide
/-- G3, G4. -/
theorem test_sneImm : (after 0x432A (regs [(3, 0x2A)])).map (·.pc) = some 0x202 ∧ (after 0x432A (regs [(3, 0x2B)])).map (·.pc) = some 0x204 := by
  decide
/-- G6, G7. -/
theorem test_seReg : (after 0x512F (regs [(1, 7), (2, 7)])).map (·.pc) = some 0x204 ∧
    (after 0x5120 (regs [(1, 7), (2, 8)])).map (·.pc) = some 0x202 := by decide
/-- G9, G10. -/
theorem test_sneReg : (after 0x9120 (regs [(1, 7), (2, 8)])).map (·.pc) = some 0x204 ∧
    (after 0x9120 (regs [(1, 7), (2, 7)])).map (·.pc) = some 0x202 := by decide
/-- G12, G13. -/
theorem test_skp : (after 0xE09E (fun s => pressing [2, 7] (regs [(0, 2)] s))).map (·.pc) = some 0x204 ∧
    (after 0xE09E (fun s => pressing [7] (regs [(0, 2)] s))).map (·.pc) = some 0x202 := by decide
/-- G16: 0x12 is no identifier. -/
theorem test_skp_beyond_keys : (after 0xE09E (fun s => (regs [(0, 0x12)] s).setHeld (Vector.replicate _ true))).map (·.pc) = some 0x202 := by
  decide
/-- G14, G15. -/
theorem test_sknp : (after 0xE0A1 (fun s => pressing [7] (regs [(0, 2)] s))).map (·.pc) = some 0x204 ∧
    (after 0xE0A1 (fun s => pressing [2] (regs [(0, 2)] s))).map (·.pc) = some 0x202 := by decide
/-- G17. -/
theorem test_sknp_beyond_keys : (after 0xE0A1 (regs [(0, 0x12)])).map (·.pc) = some 0x204 := by decide

/-! Load, arithmetic, logic, shift, random -/

/-- A1. -/
theorem test_ldImm : (after 0x6C7F).map (fun t => (t.getV 12, t.pc)) = some (0x7F, 0x202) := by decide
/-- A5: wraps, `VF` unchanged. -/
theorem test_addImm : (after 0x7001 (regs [(0, 0xFF), (15, 1)])).map (fun t => (t.getV 0, t.getV 15)) = some (0x00, 1) := by decide
/-- A6. -/
theorem test_ldReg : (after 0x8AB0 (regs [(11, 0xCC)])).map (fun t => (t.getV 10, t.getV 11)) = some (0xCC, 0xCC) := by decide
/-- A7. -/
theorem test_or : (after 0x8AB1 (regs [(10, 0xF0), (11, 0x3C), (15, 1)])).map (fun t => (t.getV 10, t.getV 15)) = some (0xFC, 1) := by decide
/-- A8. -/
theorem test_and : (after 0x8AB2 (regs [(10, 0xF0), (11, 0x3C), (15, 1)])).map (fun t => (t.getV 10, t.getV 15)) = some (0x30, 1) := by decide
/-- A9. -/
theorem test_xor : (after 0x8AB3 (regs [(10, 0xF0), (11, 0x3C), (15, 1)])).map (fun t => (t.getV 10, t.getV 15)) = some (0xCC, 1) := by decide
/-- A15: the old `VF` is the operand. -/
theorem test_addReg : (after 0x80F4 (regs [(0, 0xFF), (15, 1)])).map (fun t => (t.getV 0, t.getV 15)) = some (0x00, 1) := by decide
/-- A16: the sum is lost. -/
theorem test_addReg_vf : (after 0x8FF4 (regs [(15, 0x80)])).map (·.getV 15) = some 1 := by decide
/-- A17. -/
theorem test_sub_borrow : (after 0x8015 (regs [(0, 1), (1, 2)])).map (fun t => (t.getV 0, t.getV 15)) = some (0xFF, 0) := by decide
/-- A18: equal operands do not borrow. -/
theorem test_sub_equal : (after 0x8015 (regs [(0, 5), (1, 5)])).map (fun t => (t.getV 0, t.getV 15)) = some (0x00, 1) := by decide
/-- A22. -/
theorem test_subn : (after 0x8107 (regs [(1, 2), (0, 0xFE)])).map (fun t => (t.getV 1, t.getV 15)) = some (0xFC, 1) := by decide
/-- A23. -/
theorem test_subn_borrow : (after 0x8017 (regs [(0, 6), (1, 5)])).map (fun t => (t.getV 0, t.getV 15)) = some (0xFF, 0) := by decide
/-- A27: `Y` is not read. -/
theorem test_shr : (after 0x8016 (regs [(0, 4), (1, 0xFF)])).map (fun t => (t.getV 0, t.getV 1, t.getV 15)) = some (2, 0xFF, 0) := by decide
/-- A28. -/
theorem test_shr_vf : (after 0x8F16 (regs [(15, 3), (1, 0xAA)])).map (·.getV 15) = some 1 := by decide
/-- A30. -/
theorem test_shl : (after 0x800E (regs [(0, 0x80)])).map (fun t => (t.getV 0, t.getV 15)) = some (0x00, 1) := by decide
/-- A31. -/
theorem test_shl_vf : (after 0x8F1E (regs [(15, 0x81)])).map (·.getV 15) = some 1 := by decide
/-- R161, R250: a reset does not rewind the source of random bytes. -/
theorem test_rnd_fresh_over_reset :
    (runMoves [.tick, .reset [0xC1, 0x0F], .tick] (State.reset.withFetchWord 16 0xC10F)).map (fun t => (t.draws, t.pc)) = some (2, 0x202) := by
  decide
/-- The draw is counted, `PC` advances, and the other registers are left alone (R161). -/
theorem test_rnd : (after 0xC10F).map (fun t => (t.draws, t.pc, t.getV 0)) = some (1, 0x202, 0) := by decide

/-! Address register and memory -/

/-- M1. -/
theorem test_ldI : (after 0xA123).map (·.i) = some 0x123 := by decide
/-- M3: wraps, no flag. -/
theorem test_addI : (after 0xF21E (regsI [(2, 1)] 0xFFFF)).map (fun t => (t.i, t.getV 15)) = some (0, 0) := by decide
/-- M6: the whole byte is used. -/
theorem test_ldF : (after 0xF029 (regs [(0, 0xFF)])).map (·.i) = some 0x4FB := by decide
/-- M7. -/
theorem test_ldB : (after 0xFA33 (regsI [(10, 234)] 0x300)).map (fun t => (t.mem.get 0x300, t.mem.get 0x301, t.mem.get 0x302, t.i)) =
    some (2, 3, 4, 0x300) := by decide
/-- M11, M12. -/
theorem test_ldB_faults : stop 0xF033 (regs [(0, 5)]) = some (.memoryProtectionViolation 0) ∧
    stop 0xF133 (regsI [(1, 255)] 0xFFD) = some (.memoryOutOfRange 4095) := by decide
/-- M14: register 3 is not stored. -/
theorem test_storeRegs : (after 0xF255 (regsI [(0, 0x11), (1, 0x22), (2, 0x33), (3, 0x44)] 0x400)).map
    (fun t => (t.mem.get 0x400, t.mem.get 0x401, t.mem.get 0x402, t.mem.get 0x403)) = some (0x11, 0x22, 0x33, 0) := by decide
/-- M16. -/
theorem test_storeRegs_protected : stop 0xF155 (regsI [(0, 0x63)] 0x1FF) = some (.memoryProtectionViolation 0x1FF) := by decide
/-- M19: the glyph area may be read. -/
theorem test_loadRegs : (after 0xF465).map (fun t => (t.getV 0, t.getV 1, t.getV 3, t.getV 4, t.getV 5)) = some (0xF0, 0x90, 0x90, 0xF0, 0) := by
  decide
/-- M22, M23. -/
theorem test_loadRegs_faults : stop 0xF165 (·.setI 0xFFE) = some (.memoryOutOfRange 4095) ∧
    stop 0xF165 (·.setI 0xFFFF) = some (.memoryOutOfRange 65535) := by decide

/-! Display -/

/-- W1: `VF` unchanged. -/
theorem test_cls : (after 0x00E0 (fun s => (regs [(15, 1)] s).setDisp (Display.toggle s.disp 3 4))).map
    (fun t => (onInRow t.disp 4, t.getV 15)) = some ([], 1) := by decide
/-- W4: the row wraps. -/
theorem test_drw_wraps : (after 0xD011 (fun s => bytesAt 0x300 [0xFF] (regsI [(0, 60), (1, 5)] 0x300 s))).map
    (fun t => (onInRow t.disp 5, t.getV 15, t.pc)) = some ([0, 1, 2, 3, 60, 61, 62, 63], 0, 0x202) := by decide
/-- W7's third step: collision, two cells off and two on. -/
theorem test_drw_collision : (after 0xD011 (fun s => (bytesAt 0x301 [0x3C] (s.setI 0x301)).setDisp
      (blitRow 0xF0 0 0 { disp := s.disp, collision := false }).disp)).map
    (fun t => (onInRow t.disp 0, t.getV 15)) = some ([0, 1, 4, 5], 1) := by decide

/-! Timers and keys -/

/-- K1. -/
theorem test_ldVxDt : (after 0xF207 (·.setDT 14)).map (fun t => (t.getV 2, t.dt)) = some (14, 13) := by decide
/-- K3. -/
theorem test_ldVxK : (after 0xF50A (fun s => pressing [9, 3] (regs [(5, 0xEE)] s))).map (·.getV 5) = some 3 := by decide
/-- K4: no wait. -/
theorem test_ldVxK_none : (after 0xF50A (regs [(5, 0xEE)])).map (fun t => (t.getV 5, t.pc)) = some (0xEE, 0x202) := by decide
/-- K6, K11. -/
theorem test_ldDtVx : (after 0xF115 (fun s => (regs [(1, 15)] s).setDT 1)).map (·.dt) = some 14 := by decide
/-- K8. -/
theorem test_ldStVx : (after 0xF018 (regs [(0, 2)])).map (·.st) = some 1 := by decide

/-! The step, the scheduler, the ports -/

/-- X3, X4: the last fetch that succeeds and the first that does not. -/
theorem test_fetch_edge : (after 0x0000 (·.setPC 4093)).map (·.pc) = some 4095 ∧ stop 0x0000 (·.setPC 4094) = some (.memoryOutOfRange 4094) := by
  decide
/-- X6. -/
theorem test_malformed : stop 0x8008 = some (.malformedInstruction 0x8008) := by decide
/-- X8. -/
theorem test_halted_stays : faultOf (State.reset.setStatus (.halted (.stackUnderflow 0x200))) = some (.stackUnderflow 0x200) := by decide
/-- H2, H3, H6: presses, then releases. -/
theorem test_aggregate : (aggregate ((State.reset.setPressQ [4, 3, 3]).setRelQ [4, 9])).held.toList =
    [false, false, false, true] ++ List.replicate 12 false := by decide
/-- H7: the frame taken is the newest, the slot is then empty. -/
theorem test_take_frame : (after 0x00E0).map (fun t => ((hostTakeFrame t).1.isSome, (hostTakeFrame t).2.frame.isSome)) = some (true, false) := by
  decide
/-- Z1. -/
theorem test_reset_image : (resetWith [0x12, 0x00] 0).map (fun s => (s.mem.get 0x200, s.mem.get 0x4B, s.mem.get 0x50, s.pc)) =
    some (0x12, 0xF0, 0, 0x200) := by decide
/-- Q3 and R200: the status port after a tick that faults. -/
theorem test_status_port : statusPort (coreMove (State.reset.withFetchWord 16 0x8008)) = some (1, 0x8008) := by decide
/-- The flat sequence of R33: cell `(1, 2)` is element `2 * 64 + 1`. -/
theorem test_frame_order : (Display.cells (Display.toggle Display.blank 1 2))[129]? = some true := by decide

/-! Witnesses: for each obligation with hypotheses, a state and operands that meet all of them together, at the edges of the ranges its clauses
name. Each theorem bears the obligation's name. -/

/-- The state a step is taken from in `after` and `stop`. -/
def at200 (w : Nat) (f : State → State := id) : State := (f State.reset).withFetchWord 16 w

/-- The next state of an outcome. -/
def nextOf : Result → Option State
  | .next t => some t
  | .fault _ => none
  | .refused _ => none

theorem exists_next {r : Result} (h : (nextOf r).isSome = true) : ∃ t, r = .next t := by
  cases r with
  | next t => exact ⟨t, rfl⟩
  | fault f => exact absurd h (by simp [nextOf])
  | refused f => exact absurd h (by simp [nextOf])

theorem witness_DecodeUndoesEncode : (Instr.sys 0xFFF).wellFormed = true ∧ (Instr.drw 15 15 15).wellFormed = true := by decide
theorem witness_EncodeUndoesDecode : decode 0x5ABF = .ok (.seReg 10 11) ∧ decode 0xF165 = .ok (.loadRegs 1) := by decide
theorem witness_IllegalWordsFailAndOnlyThey : (IllegalWord 0x8008 ∧ IllegalWord 0x9001 ∧ IllegalWord 0xE09D ∧ IllegalWord 0xF000) ∧
    ¬IllegalWord 0x800E ∧ ¬IllegalWord 0x9000 ∧ ¬IllegalWord 0xEFA1 ∧ ¬IllegalWord 0xFF65 ∧ ¬IllegalWord 0x0000 :=
  ⟨⟨by decide, by decide, by decide, by decide⟩, by decide, by decide, by decide, by decide, by decide⟩
theorem witness_FamilyZeroAlwaysDecodes : (0x0FFF : Word).toNat / 4096 = 0 ∧ (0x00E0 : Word).toNat / 4096 = 0 := by decide
theorem witness_StepExecutesTheDecodedInstruction : Fetches State.reset (.sys 0) ∧ Fetches (at200 0xF133) (.ldB 1) := by decide
theorem witness_FetchReadsTwoBytesBigEndian : (State.reset.setPC 4093).pc.toNat < 4094 ∧
    4094 ≤ (State.reset.setPC 4094).pc.toNat ∧ (State.reset.setPC 4094).status = .running := by decide
theorem witness_IllegalWordStopsTheStep : (at200 0x9AB1).status = .running ∧ (at200 0x9AB1).pc.toNat < 4094 ∧
    IllegalWord (((at200 0x9AB1).mem.get 0x200).toNat * 256 + ((at200 0x9AB1).mem.get 0x201).toNat) := by decide
theorem witness_TickFoldsKeyEvents : ∃ t, step (at200 0x6000 (fun s => (s.setPressQ [4, 3]).setRelQ [4, 9])) = .next t := exists_next (by decide)
theorem witness_TickPublishesTheDisplay : ∃ t, step (at200 0x00E0) = .next t := exists_next (by decide)
theorem witness_TickDecrementsTimersOnce : ∃ t, step (at200 0xF015 (regs [(0, 1)])) = .next t := exists_next (by decide)
theorem witness_UnsetTimersFallByOne : Fetches (at200 0xF107 (·.setDT 1)) (.ldVxDt 1) ∧
    (∀ x, Instr.ldVxDt 1 ≠ .ldDtVx x) ∧ (∀ x, Instr.ldVxDt 1 ≠ .ldStVx x) ∧ ∃ t, step (at200 0xF107 (·.setDT 1)) = .next t :=
  ⟨by decide, by simp, by simp, exists_next (by decide)⟩
theorem witness_HaltedMachineStaysHalted : (State.reset.setStatus (.halted (.stackUnderflow 0x200))).status = .halted (.stackUnderflow 0x200) ∧
    (∀ rom, Move.reset rom ∉ [Move.tick, .keys [1] [], .takeFrame, .tick]) ∧
    ∃ t, runMoves [.tick, .keys [1] [], .takeFrame, .tick] (State.reset.setStatus (.halted (.stackUnderflow 0x200))) = some t :=
  ⟨rfl, by simp, _, rfl⟩
theorem witness_FaultingTickLatchesStatus : (at200 0x00EE).status = .running ∧ step (at200 0x00EE) = .fault (.stackUnderflow 0x200) :=
  ⟨rfl, rfl⟩
theorem witness_StepKeepsInvariant : State.reset.Inv ∧ ∃ t, step State.reset = .next t :=
  ⟨⟨by decide, by decide, by decide, by simp [State.reset]⟩, exists_next (by decide)⟩
theorem witness_ResetMeetsInvariant : ∃ s, resetWith [0x12, 0x00] 7 = some s := ⟨_, rfl⟩
theorem witness_EveryInterleavingKeepsInvariant : (State.reset.status = .running → State.reset.Inv) ∧
    (runMoves [.keys [1] [], .tick, .takeFrame, .reset [0x12, 0x00], .tick] State.reset).map (fun t => (t.status, t.pc)) =
      some (.running, 0x200) :=
  ⟨fun _ => witness_StepKeepsInvariant.1, by decide⟩
theorem witness_StepNeverWritesProtectedMemory : (∃ t, step (at200 0xF055 (·.setI 0x200)) = .next t) ∧ (511 : Nat) < 512 :=
  ⟨exists_next (by decide), by decide⟩
theorem witness_ResetLeavesTheTabledState : 3583 < (List.replicate 3584 (1 : Byte)).length ∧ (List.replicate 3583 (1 : Byte)).length ≤ 3583 ∧
    3582 < (List.replicate 3583 (1 : Byte)).length ∧ (79 : Nat) < 80 ∧ (80 : Nat) ≤ 511 ∧ 511 < 0x200 ∧ 0x200 + [(1 : Byte)].length ≤ 0x201 := by
  simp only [List.length_replicate]; decide
theorem witness_MemReadReturnsOrFaults : 4095 ≤ 4095 ∧ ¬4095 ≤ 4094 ∧ 4095 ≤ 4094 + 1 ∧ 4093 + 1 < 4095 := by decide
theorem witness_MemWriteWritesOrFaults : 511 < 512 ∧ 4095 ≤ 4095 ∧ (512 ≤ 512 ∧ 512 < 4095) ∧ 512 ≤ 4094 ∧ 4094 < 4095 := by decide
theorem witness_NextFetchSeesTheStore : 1 ≤ (1 : Nibble).toNat ∧ (State.reset.setI 0x202).i = State.reset.pc + 2 ∧
    ∃ t, exec (.storeRegs 1) (State.reset.setI 0x202) = .next t := ⟨by decide, by decide, exists_next (by decide)⟩
theorem witness_OnlyStoresWriteMemory : (∀ x, Instr.drw 0 1 5 ≠ .ldB x) ∧ (∀ x, Instr.drw 0 1 5 ≠ .storeRegs x) ∧
    ∃ t, exec (.drw 0 1 5) State.reset = .next t := ⟨by simp, by simp, exists_next (by decide)⟩
theorem witness_OnlyClearAndDrawWriteDisplay : Instr.loadRegs 3 ≠ .cls ∧ (∀ x y n, Instr.loadRegs 3 ≠ .drw x y n) ∧
    ∃ t, exec (.loadRegs 3) State.reset = .next t := ⟨by simp, by simp, exists_next (by decide)⟩
theorem witness_OnlyCallAndReturnWriteStack : (∀ nnn, Instr.jp 0x300 ≠ .call nnn) ∧ Instr.jp 0x300 ≠ .ret ∧
    ∃ t, exec (.jp 0x300) State.reset = .next t := ⟨by simp, by simp, exists_next (by decide)⟩
theorem witness_OnlyThreeInstructionsWriteAddressRegister : (∀ nnn, Instr.storeRegs 2 ≠ .ldI nnn) ∧ (∀ x, Instr.storeRegs 2 ≠ .addI x) ∧
    (∀ x, Instr.storeRegs 2 ≠ .ldF x) ∧ ∃ t, exec (.storeRegs 2) (State.reset.setI 0x300) = .next t :=
  ⟨by simp, by simp, by simp, exists_next (by decide)⟩
theorem witness_RegistersChangeOnlyAsTabled : ((∃ t, exec (.addReg 3 4) State.reset = .next t) ∧ ¬IsDestination (.addReg 3 4) 4 ∧
      ¬((4 : Nibble) = 15 ∧ WritesFlag (.addReg 3 4))) ∧
    (∃ t, exec (.loadRegs 3) State.reset = .next t) ∧ ¬IsDestination (.loadRegs 3) 4 ∧ ¬((4 : Nibble) = 15 ∧ WritesFlag (.loadRegs 3)) := by
  refine ⟨⟨exists_next (by decide), ?_, by simp⟩, exists_next (by decide), ?_, by simp⟩
  · simp
  · simp only [IsDestination, reduceCtorEq, false_or, Instr.loadRegs.injEq, not_exists]
    rintro - - x ⟨h, rfl⟩
    exact absurd h (by decide)
theorem witness_ExecLeavesHostSideAlone : ∃ t, exec (.ldVxK 0) (State.reset.setHeld (Vector.replicate _ true)) = .next t :=
  exists_next (by decide)
theorem witness_ExecuteFaultsHaveListedCauses : exec .ret State.reset = .fault (.stackUnderflow 0x200) ∧
    exec (.storeRegs 0) (State.reset.setI 511) = .fault (.memoryProtectionViolation 511) ∧
    exec (.drw 0 0 2) (State.reset.setI 4094) = .fault (.memoryOutOfRange 4095) ∧
    exec (.loadRegs 0) (State.reset.setI 0xFFFF) = .fault (.memoryOutOfRange 0xFFFF) := ⟨rfl, rfl, rfl, rfl⟩
theorem witness_OnlyKeyAndRandomInstructionsReadInputs : (∀ x, Instr.rnd 1 2 ≠ .skp x) ∧ (∀ x, Instr.rnd 1 2 ≠ .sknp x) ∧
    (∀ x, Instr.rnd 1 2 ≠ .ldVxK x) ∧ ∀ x nn, Instr.skp 1 ≠ .rnd x nn := by simp
theorem witness_SysOnlyAdvances : (0x0E1 : Addr).toNat ≠ 0x0E0 ∧ (0x0E1 : Addr).toNat ≠ 0x0EE := by decide
theorem witness_ReturnPopsIntoProgramCounter : State.reset.stack = [] ∧ (State.reset.setStack [0x300, 0xABC]).stack = [0x300] ++ [0xABC] ∧
    (State.reset.setStack [0xABC]).stack = [] ++ [0xABC] := by decide
theorem witness_CallThenReturnRestores : ∃ t, exec (.call 0x300) State.reset = .next t := ⟨_, rfl⟩
theorem witness_KeySkips :
    (∃ k : KeyId, (((regs [(1, 15)] State.reset).setHeld (Vector.replicate _ true)).getV 1).toNat = k.val ∧
      ((regs [(1, 15)] State.reset).setHeld (Vector.replicate _ true)).held[k.val] = true) ∧
    (∀ k : KeyId, ((regs [(1, 15)] State.reset).getV 1).toNat = k.val → (regs [(1, 15)] State.reset).held[k.val] = false) ∧
    ∀ k : KeyId, (((regs [(1, 16)] State.reset).setHeld (Vector.replicate _ true)).getV 1).toNat = k.val →
      ((regs [(1, 16)] State.reset).setHeld (Vector.replicate _ true)).held[k.val] = false := by decide
/-- The hypothesis of the three statements about flag-writing instructions. -/
theorem witness_AddSetsCarry_SubtractionsSetNoBorrow_ShiftsSetBitShiftedOut : (14 : Nibble) ≠ 15 := by decide
theorem witness_EveryDrawIsFresh : Fetches (at200 0xC10F) (.rnd 1 0x0F) ∧
    (runMoves [.tick, .reset [0xC1, 0x0F], .keys [1] [], .takeFrame] (at200 0xC10F)).isSome = true ∧
    (runMoves [.tick, .tick] (at200 0x00EE)).isSome = true := by decide
theorem witness_DecimalStore : (State.reset.setI 511).i.toNat < 512 ∧ 4092 < (State.reset.setI 4093).i.toNat ∧
    512 ≤ (State.reset.setI 512).i.toNat ∧ (State.reset.setI 512).i.toNat ≤ 4092 ∧
    512 ≤ (State.reset.setI 4092).i.toNat ∧ (State.reset.setI 4092).i.toNat ≤ 4092 := by decide
theorem witness_BlockStore : (State.reset.setI 511).i.toNat < 512 ∧ 4094 < (State.reset.setI 4080).i.toNat + (15 : Nibble).toNat ∧
    512 ≤ (State.reset.setI 4079).i.toNat ∧ (State.reset.setI 4079).i.toNat + (15 : Nibble).toNat ≤ 4094 ∧
    (15 : Nibble).toNat ≤ (15 : Nibble).toNat ∧ 512 ≤ (State.reset.setI 512).i.toNat := by decide
theorem witness_BlockLoad : 4094 < (State.reset.setI 4080).i.toNat + (15 : Nibble).toNat ∧
    (State.reset.setI 4079).i.toNat + (15 : Nibble).toNat ≤ 4094 ∧ (0 : Nibble).toNat ≤ (15 : Nibble).toNat := by decide
theorem witness_BlockStoreThenLoadRoundTrips : ∃ t u : State, exec (.storeRegs 15) (State.reset.setI 4079) = .next t ∧ u.mem = t.mem ∧ u.i = t.i := by
  obtain ⟨t, h⟩ := exists_next (r := exec (.storeRegs 15) (State.reset.setI 4079)) (by decide)
  exact ⟨t, t.setPC 0, h, rfl, rfl⟩
theorem witness_ClearTurnsEveryCellOff : Fetches (at200 0x00E0) .cls := by decide
theorem witness_DrawXorsSpriteAndReportsCollision :
    ((1 : Nibble).toNat ≠ 0 ∧ 4095 < (State.reset.setI 4095).i.toNat + (1 : Nibble).toNat) ∧ (0 : Nibble).toNat = 0 ∧
    (State.reset.setI 4080).i.toNat + (15 : Nibble).toNat ≤ 4095 ∧ SpriteCovers State.reset 0 0 1 0 0 ∧
    (Display.cell (State.reset.setDisp (Display.toggle State.reset.disp 0 0)).disp 0 0 = true ∧
      SpriteCovers (State.reset.setDisp (Display.toggle State.reset.disp 0 0)) 0 0 1 0 0) ∧
    ∀ px py, px < 64 → py < 32 → Display.cell State.reset.disp px py = true → ¬SpriteCovers State.reset 0 0 1 px py :=
  ⟨by decide, by decide, by decide, ⟨0, by decide, 0, by decide, by decide⟩, ⟨by decide, 0, by decide, 0, by decide, by decide⟩,
    fun px py _ _ h => absurd h (by simp [Display.cell, State.reset])⟩
theorem witness_DrawTwiceRestoresDisplay : (∃ t, exec (.drw 1 2 5) State.reset = .next t ∧ t.getV 1 = State.reset.getV 1 ∧
      t.getV 2 = State.reset.getV 2) ∧ (∀ px py, Display.cell State.reset.disp px py = false) ∧ (∃ px py, SpriteCovers State.reset 1 2 5 px py) ∧
    ∀ px py, ¬SpriteCovers State.reset 1 2 0 px py := by
  refine ⟨?_, by simp [Display.cell, State.reset], ⟨0, 0, 0, by decide, 0, by decide, by decide⟩, by simp⟩
  obtain ⟨t, h⟩ := exists_next (r := exec (.drw 1 2 5) State.reset) (by decide)
  have hv : ∀ r, (nextOf (exec (.drw 1 2 5) State.reset)).map (·.getV r) = some (t.getV r) := fun r => by rw [h]; rfl
  exact ⟨t, h, Option.some.inj ((hv 1).symm.trans (by decide)), Option.some.inj ((hv 2).symm.trans (by decide))⟩
theorem witness_TimerMoves : Fetches (at200 0xF107) (.ldVxDt 1) ∧ Fetches (at200 0xF115) (.ldDtVx 1) ∧ Fetches (at200 0xF118) (.ldStVx 1) := by
  decide
theorem witness_KeyWaitTakesLowestAndNeverBlocks :
    ((State.reset.setHeld (Vector.replicate _ true)).held[(0 : KeyId).val] = true ∧
      ∀ j : KeyId, j < 0 → (State.reset.setHeld (Vector.replicate _ true)).held[j.val] = false) ∧
    ((aggregate (pressing [15] State.reset)).held[(15 : KeyId).val] = true ∧
      ∀ j : KeyId, j < 15 → (aggregate (pressing [15] State.reset)).held[j.val] = false) ∧
    ∀ k : KeyId, State.reset.held[k.val] = false := by decide
theorem witness_PressedKeyIsHeldUntilReleased : (3 : KeyId) ∉ State.reset.relQ ∧
    (runMoves (.keys [3] [] :: List.replicate 2 .tick) State.reset).map (·.status) = some .running ∧
    (runMoves [.keys [3] [], .tick, .tick, .keys [] [3], .tick] State.reset).map (·.status) = some .running := by decide
theorem witness_TakenFrameIsTheNewest : (runMoves (List.replicate 2 .tick) State.reset).map (·.status) = some .running := by decide

end Sys2Proof.Tests
end

section
/-! The word of every instruction decodes to it (30_encoding.md rules R86 to R91), and so does the number its fields make. -/

namespace Sys2Proof

/-- The decoder gives back every operation the encoding can express. -/
theorem decode_encode {i : Instr} (h : i.wellFormed = true) : decode (encode i) = .ok i := by
  cases i with
  | sys nnn =>
    simp only [Instr.wellFormed, Bool.and_eq_true, bne_iff_ne] at h
    have hne {w : Word} (hw : nnn ≠ fieldNNN w) : (0x0#4 ++ nnn : Word) ≠ w := fun e => hw (by rw [← e, fieldNNN_wordA])
    rw [encode, decode_family0 (fieldF_wordA ..), decodeFamily0, if_neg (hne (w := 0x00E0#16) h.1), if_neg (hne (w := 0x00EE#16) h.2), fieldNNN_wordA]
  | cls => decide
  | ret => decide
  | jp _ => rw [encode, decode_family1 (fieldF_wordA ..), fieldNNN_wordA]
  | call _ => rw [encode, decode_family2 (fieldF_wordA ..), fieldNNN_wordA]
  | seImm _ _ => rw [encode, decode_family3 (fieldF_wordXI ..), fieldX_wordXI, fieldNN_wordXI]
  | sneImm _ _ => rw [encode, decode_family4 (fieldF_wordXI ..), fieldX_wordXI, fieldNN_wordXI]
  | seReg _ _ => rw [encode, decode_family5 (fieldF_wordXYN ..), fieldX_wordXYN, fieldY_wordXYN]
  | ldImm _ _ => rw [encode, decode_family6 (fieldF_wordXI ..), fieldX_wordXI, fieldNN_wordXI]
  | addImm _ _ => rw [encode, decode_family7 (fieldF_wordXI ..), fieldX_wordXI, fieldNN_wordXI]
  | ldReg _ _ | or _ _ | and _ _ | xor _ _ | addReg _ _ | sub _ _ | shr _ _ | subn _ _ | shl _ _ =>
    rw [encode, decode_family8 (fieldF_wordXYN ..)]
    simp only [decodeFamily8, fieldN_wordXYN, fieldX_wordXYN, fieldY_wordXYN]
  | sneReg _ _ =>
    rw [encode, decode_family9 (fieldF_wordXYN ..), decodeFamily9, fieldN_wordXYN, if_pos (by decide), fieldX_wordXYN, fieldY_wordXYN]
  | ldI _ => rw [encode, decode_familyA (fieldF_wordA ..), fieldNNN_wordA]
  | jpV0 _ => rw [encode, decode_familyB (fieldF_wordA ..), fieldNNN_wordA]
  | rnd _ _ => rw [encode, decode_familyC (fieldF_wordXI ..), fieldX_wordXI, fieldNN_wordXI]
  | drw _ _ _ => rw [encode, decode_familyD (fieldF_wordXYN ..), fieldX_wordXYN, fieldY_wordXYN, fieldN_wordXYN]
  | skp _ | sknp _ =>
    rw [encode, decode_familyE (fieldF_wordXI ..)]
    simp only [decodeFamilyE, fieldNN_wordXI, fieldX_wordXI]
  | ldVxDt _ | ldVxK _ | ldDtVx _ | ldStVx _ | addI _ | ldF _ | ldB _ | storeRegs _ | loadRegs _ =>
    rw [encode, decode_familyF (fieldF_wordXI ..)]
    simp only [decodeFamilyF, fieldNN_wordXI, fieldX_wordXI]

/-- A number decodes to the operation whose word it is. -/
theorem decode_ofNat {i : Instr} {k : Nat} (hi : i.wellFormed = true) (hk : k = (encode i).toNat) :
    decode (BitVec.ofNat 16 k) = .ok i := by
  rw [hk, BitVec.ofNat_toNat, BitVec.setWidth_eq, decode_encode hi]

end Sys2Proof
end

section
/-! What each instruction may change (10_state.md rules R21 to R37), said once for all of them: its footprint. Every claim that an instruction
leaves a component alone reads it off the footprint. -/

namespace Sys2Proof.Machine

/-- Everything but the program counter that an instruction may change when executed in `s`. -/
def footprint (s : State) : Instr → Footprint
  | .sys _ | .jp _ | .jpV0 _ => {}
  | .seImm _ _ | .sneImm _ _ | .seReg _ _ | .sneReg _ _ | .skp _ | .sknp _ => {}
  | .ret | .call _ => { stack := true }
  | .cls => { disp := true }
  | .drw _ _ _ => { regs := [15], disp := true }
  | .ldImm x _ | .addImm x _ | .ldReg x _ | .or x _ | .and x _ | .xor x _ | .ldVxDt x | .ldVxK x => { regs := [x] }
  | .addReg x _ | .sub x _ | .shr x _ | .subn x _ | .shl x _ => { regs := [x, 15] }
  | .rnd x _ => { regs := [x], draws := true }
  | .ldDtVx _ => { dt := true }
  | .ldStVx _ => { st := true }
  | .ldI _ | .addI _ | .ldF _ => { i := true }
  | .ldB _ => { bytes := [effAddr s 0, effAddr s 1, effAddr s 2] }
  | .storeRegs x => { bytes := (List.range (x.toNat + 1)).map (effAddr s) }
  | .loadRegs x => { regs := (List.range (x.toNat + 1)).map (BitVec.ofNat 4) }

/-! The field writes and the footprints that allow them -/

section
variable {p : Footprint} {s t : State}

theorem Unchanged.refl (p : Footprint) (s : State) : Unchanged p s s := by
  constructor <;> intros <;> rfl

theorem Unchanged.setPC (h : Unchanged p s t) (w : Word) : Unchanged p s (t.setPC w) := by
  obtain ⟨hv, hm, hi, hdt, hst, hk, hd, hn, h1, h2, h3, h4, h5⟩ := h
  exact ⟨hv, hm, hi, hdt, hst, hk, hd, hn, h1, h2, h3, h4, h5⟩

theorem Unchanged.setV (h : Unchanged p s t) {x : Nibble} (hx : x ∈ p.regs) (b : Byte) : Unchanged p s (t.setV x b) :=
  { h with regs := fun r hr => (State.getV_setV_of_ne t b (ne_of_mem_of_not_mem hx hr).symm).trans (h.regs r hr) }

theorem Unchanged.setResultFlag (h : Unchanged p s t) {x : Nibble} (hp : p.regs = [x, 15]) (r g : Byte) :
    Unchanged p s (t.setResultFlag x r g) :=
  (h.setV (by simp [hp]) r).setV (by simp [hp, flagReg]) g

theorem Unchanged.setI (h : Unchanged p s t) (hp : p.i = true) (w : Word) : Unchanged p s (t.setI w) :=
  { h with i := fun e => absurd (hp.symm.trans e) (by decide) }

theorem Unchanged.setDT (h : Unchanged p s t) (hp : p.dt = true) (b : Byte) : Unchanged p s (t.setDT b) :=
  { h with dt := fun e => absurd (hp.symm.trans e) (by decide) }

theorem Unchanged.setST (h : Unchanged p s t) (hp : p.st = true) (b : Byte) : Unchanged p s (t.setST b) :=
  { h with st := fun e => absurd (hp.symm.trans e) (by decide) }

theorem Unchanged.setStack (h : Unchanged p s t) (hp : p.stack = true) (k : List Word) : Unchanged p s (t.setStack k) :=
  { h with stack := fun e => absurd (hp.symm.trans e) (by decide) }

theorem Unchanged.setDisp (h : Unchanged p s t) (hp : p.disp = true) (d : Display) : Unchanged p s (t.setDisp d) :=
  { h with disp := fun e => absurd (hp.symm.trans e) (by decide) }

theorem Unchanged.setDraws (h : Unchanged p s t) (hp : p.draws = true) (n : Nat) : Unchanged p s (t.setDraws n) :=
  { h with draws := fun e => absurd (hp.symm.trans e) (by decide) }

theorem Unchanged.setMem (h : Unchanged p s t) {m : Memory} (hm : ∀ a, a ∉ p.bytes → m.get a = s.mem.get a) :
    Unchanged p s (t.setMem m) :=
  { h with bytes := hm }

end

/-- The registers of a completed block load are the ones its footprint names. -/
theorem unchanged_loadRegs {x : Nibble} {s t : State} (h : exec (.loadRegs x) s = .next t) :
    Unchanged (footprint s (.loadRegs x)) s t := by
  obtain ⟨u, hu, rfl⟩ := exec_loadRegs_next h
  have hx := x.isLt
  obtain ⟨-, -, hv⟩ := loadRegsFrom_ok (by omega) hu
  refine { Unchanged.refl _ s with regs := fun r hr => (hv r).trans (if_neg fun ⟨_, hlt⟩ => hr ?_) }
  exact List.mem_map.mpr ⟨r.toNat, List.mem_range.mpr (by omega), by simp⟩

/-- The bytes of a completed store are those from its first address on. -/
theorem unchanged_store {p : Footprint} {s t : State} {a : Nat} {bs : List Byte} (h : advanceAfter (storeBytes s a bs) = .next t)
    (hp : ∀ k, k < bs.length → a + k ∈ p.bytes) : Unchanged p s t := by
  obtain ⟨u, hu, rfl⟩ := store_next h
  obtain ⟨-, -, hm⟩ := storeBytes_ok hu
  refine ((Unchanged.refl p s).setMem fun b hb => (hm b).trans (dif_neg fun ⟨hle, hlt⟩ => hb ?_)).setPC _
  simpa only [Nat.add_sub_cancel' hle] using hp (b - a) hlt

/-- An instruction that completes changes nothing outside its footprint, the program counter excepted. -/
theorem exec_unchanged {i : Instr} {s t : State} (h : exec i s = .next t) : Unchanged (footprint s i) s t := by
  have of_eq {u : State} (hi : exec i s = .next u) (hu : Unchanged (footprint s i) s u) : Unchanged (footprint s i) s t :=
    Host.Outcome.next.inj (hi.symm.trans h) ▸ hu
  have keep := Unchanged.refl (footprint s i) s
  cases i with
  | sys nnn => exact of_eq (exec_sys ..) (keep.setPC _)
  | cls => exact of_eq (exec_cls ..) ((keep.setDisp rfl _).setPC _)
  | ret =>
    obtain ⟨rest, a, -, rfl⟩ := exec_ret_next h
    exact (keep.setStack rfl _).setPC _
  | jp nnn => exact of_eq (exec_jp ..) (keep.setPC _)
  | call nnn => exact of_eq (exec_call ..) ((keep.setStack rfl _).setPC _)
  | seImm x nn => exact of_eq (exec_seImm ..) (keep.setPC _)
  | sneImm x nn => exact of_eq (exec_sneImm ..) (keep.setPC _)
  | seReg x y => exact of_eq (exec_seReg ..) (keep.setPC _)
  | ldImm x nn => exact of_eq (exec_ldImm ..) ((keep.setV (List.mem_singleton_self x) _).setPC _)
  | addImm x nn => exact of_eq (exec_addImm ..) ((keep.setV (List.mem_singleton_self x) _).setPC _)
  | ldReg x y => exact of_eq (exec_ldReg ..) ((keep.setV (List.mem_singleton_self x) _).setPC _)
  | or x y => exact of_eq (exec_or ..) ((keep.setV (List.mem_singleton_self x) _).setPC _)
  | and x y => exact of_eq (exec_and ..) ((keep.setV (List.mem_singleton_self x) _).setPC _)
  | xor x y => exact of_eq (exec_xor ..) ((keep.setV (List.mem_singleton_self x) _).setPC _)
  | addReg x y => exact of_eq (exec_addReg ..) ((keep.setResultFlag rfl _ _).setPC _)
  | sub x y => exact of_eq (exec_sub ..) ((keep.setResultFlag rfl _ _).setPC _)
  | shr x y => exact of_eq (exec_shr ..) ((keep.setResultFlag rfl _ _).setPC _)
  | subn x y => exact of_eq (exec_subn ..) ((keep.setResultFlag rfl _ _).setPC _)
  | shl x y => exact of_eq (exec_shl ..) ((keep.setResultFlag rfl _ _).setPC _)
  | sneReg x y => exact of_eq (exec_sneReg ..) (keep.setPC _)
  | ldI nnn => exact of_eq (exec_ldI ..) ((keep.setI rfl _).setPC _)
  | jpV0 nnn => exact of_eq (exec_jpV0 ..) (keep.setPC _)
  | rnd x nn => exact of_eq (exec_rnd ..) (((keep.setV (List.mem_singleton_self x) _).setDraws rfl _).setPC _)
  | drw x y n =>
    obtain ⟨c, -, rfl⟩ := exec_drw_next h
    exact ((keep.setDisp rfl _).setV (List.mem_singleton_self 15) _).setPC _
  | skp x => exact of_eq (exec_skp ..) (keep.setPC _)
  | sknp x => exact of_eq (exec_sknp ..) (keep.setPC _)
  | ldVxDt x => exact of_eq (exec_ldVxDt ..) ((keep.setV (List.mem_singleton_self x) _).setPC _)
  | ldVxK x =>
    cases hk : KeySet.lowest s.held with
    | some k => exact of_eq (exec_ldVxK_some hk) ((keep.setV (List.mem_singleton_self x) _).setPC _)
    | none => exact of_eq (exec_ldVxK_none hk) (keep.setPC _)
  | ldDtVx x => exact of_eq (exec_ldDtVx ..) ((keep.setDT rfl _).setPC _)
  | ldStVx x => exact of_eq (exec_ldStVx ..) ((keep.setST rfl _).setPC _)
  | addI x => exact of_eq (exec_addI ..) ((keep.setI rfl _).setPC _)
  | ldF x => exact of_eq (exec_ldF ..) ((keep.setI rfl _).setPC _)
  | ldB x =>
    refine unchanged_store h fun k hk => ?_
    have hk : k < 3 := hk
    interval_cases k <;> simp [footprint, effAddr]
  | storeRegs x =>
    refine unchanged_store h fun k hk => List.mem_map.mpr ⟨k, List.mem_range.mpr ?_, rfl⟩
    simpa only [regBlock_length] using hk
  | loadRegs x => exact unchanged_loadRegs h

end Sys2Proof.Machine
end

section
/-! What a step is made of: the instruction fetched, executed after input aggregation, then the timers and the frame (40_step_cycle.md rules R110
to R118, 60_exceptions.md rules R212 to R214). -/

namespace Sys2Proof.Machine

/-- The two bytes at the program counter decode to what the word fetched decodes to. -/
theorem fetches_iff {s : State} {i : Instr} :
    Fetches s i ↔ s.status = .running ∧ ∃ w, fetch s = .ok w ∧ decode w = .ok i := by
  have hbytes : decodeBytes [s.mem.get s.pc.toNat, s.mem.get (s.pc.toNat + 1)] = .ok (i, []) ↔
      decode (s.mem.get s.pc.toNat ++ s.mem.get (s.pc.toNat + 1)) = .ok i := by
    simp only [decodeBytes, wordOfBytes]
    cases decode (s.mem.get s.pc.toNat ++ s.mem.get (s.pc.toNat + 1)) <;> simp
  rw [Fetches, hbytes]
  rcases fetch_eq s with ⟨hlt, hf⟩ | ⟨hge, hf⟩
  · simp [hf, hlt]
  · simp [hf, Nat.not_lt.mpr hge]

/-- A state fetches one instruction at most. -/
theorem Fetches.unique {s : State} {i j : Instr} (hi : Fetches s i) (hj : Fetches s j) : i = j := by
  obtain ⟨-, w, hw, hi⟩ := fetches_iff.mp hi
  obtain ⟨-, v, hv, hj⟩ := fetches_iff.mp hj
  obtain rfl := Except.ok.inj (hw.symm.trans hv)
  exact Except.ok.inj (hi.symm.trans hj)

/-- A step that answers a next state has fetched an instruction that completed; the timers and the frame follow it. -/
theorem step_next_iff_fetches {s t : State} :
    step s = .next t ↔ ∃ i u, Fetches s i ∧ exec i (aggregate s) = .next u ∧ t = publish (decrementTimers u) := by
  rw [step_next_iff]
  constructor
  · rintro ⟨hs, w, i, u, hw, hi, hu⟩
    exact ⟨i, u, fetches_iff.mpr ⟨hs, w, hw, hi⟩, hu⟩
  · rintro ⟨i, u, hf, hu⟩
    obtain ⟨hs, w, hw, hi⟩ := fetches_iff.mp hf
    exact ⟨hs, w, i, u, hw, hi, hu⟩

@[simp] theorem aggregate_dt (s : State) : (aggregate s).dt = s.dt := rfl
@[simp] theorem aggregate_st (s : State) : (aggregate s).st = s.st := rfl
@[simp] theorem publish_disp (s : State) : (publish s).disp = s.disp := rfl
@[simp] theorem publish_frame (s : State) : (publish s).frame = some s.disp := rfl
@[simp] theorem publish_dt (s : State) : (publish s).dt = s.dt := rfl
@[simp] theorem publish_st (s : State) : (publish s).st = s.st := rfl
@[simp] theorem decrementTimers_dt (s : State) : (decrementTimers s).dt = timerDown s.dt := rfl
@[simp] theorem decrementTimers_st (s : State) : (decrementTimers s).st = timerDown s.st := rfl

/-- The invariant speaks of memory, the stack and the program counter only, none of which the host side of a tick touches. -/
theorem inv_aggregate {s : State} : (aggregate s).Inv ↔ s.Inv := Iff.rfl

theorem inv_publish_decrementTimers {s : State} : (publish (decrementTimers s)).Inv ↔ s.Inv := Iff.rfl

end Sys2Proof.Machine
end

section
/-! The invariant of the core (10_state.md rule R30, 20_memory.md rules R50, R54, R61): what an instruction can do to memory, the stack and the
program counter, and that nothing of it leaves the bounds. -/

namespace Sys2Proof.Machine

/-- Everything an instruction that completes can do to memory, the stack and the program counter. -/
inductive Flow (s t : State) : Prop where
  /-- The default advance or a skip (R113). -/
  | advance (mem : t.mem = s.mem) (stack : t.stack = s.stack) (pc : t.pc = s.pc + 2 ∨ t.pc = s.pc + 4)
  /-- A store, then the default advance (R173, R174). -/
  | store {a : Nat} {bs : List Byte} {u : State} (stored : storeBytes s a bs = .ok u) (mem : t.mem = u.mem) (stack : t.stack = s.stack)
      (pc : t.pc = s.pc + 2)
  /-- A jump, to `NNN` or to `NNN + V[0]` (R132, R134). -/
  | jump (mem : t.mem = s.mem) (stack : t.stack = s.stack) (pc : t.pc.toNat ≤ 0x10FE)
  /-- A call (R133). -/
  | call (mem : t.mem = s.mem) (stack : t.stack = s.stack ++ [s.pc + 2]) (pc : t.pc.toNat ≤ 0x10FE)
  /-- A return (R131). -/
  | ret (mem : t.mem = s.mem) (stack : s.stack = t.stack ++ [t.pc])

/-- A target `NNN` is a 12-bit address. -/
theorem addrOperand_le (nnn : Addr) : (addrOperand nnn).toNat ≤ 0x10FE := by
  have := nnn.isLt
  rw [addrOperand_toNat]; omega

/-- The largest target of `JP V0, addr` is 0xFFF + 0xFF (R30). -/
theorem addrOperand_add_le (nnn : Addr) (s : State) (x : Nibble) : (addrOperand nnn + regOperand16 s x).toNat ≤ 0x10FE := by
  have := nnn.isLt; have := (s.getV x).isLt
  rw [BitVec.toNat_add, addrOperand_toNat, regOperand16_toNat]; omega

/-- A skip goes on by 4 or by 2. -/
theorem Flow.skip (s : State) (c : Bool) : Flow s (s.setPC (if c then s.pc + 4 else s.pc + 2)) := by
  cases c
  · exact .advance rfl rfl (.inl rfl)
  · exact .advance rfl rfl (.inr rfl)

/-- A store that completes, with the default advance after it. -/
theorem Flow.of_store {s t : State} {a : Nat} {bs : List Byte} (h : advanceAfter (storeBytes s a bs) = .next t) : Flow s t := by
  obtain ⟨u, hu, rfl⟩ := store_next h
  exact .store hu rfl rfl rfl

/-- An instruction that completes does one of the five; those that only advance are grouped last, their equations holding by `rfl`. -/
theorem exec_flow {i : Instr} {s t : State} (h : exec i s = .next t) : Flow s t := by
  have of_eq {u : State} (hi : exec i s = .next u) (hu : Flow s u) : Flow s t := Host.Outcome.next.inj (hi.symm.trans h) ▸ hu
  cases i with
  | jp nnn => exact of_eq (exec_jp ..) (.jump rfl rfl (addrOperand_le nnn))
  | jpV0 nnn => exact of_eq (exec_jpV0 ..) (.jump rfl rfl (addrOperand_add_le nnn s 0))
  | call nnn => exact of_eq (exec_call ..) (.call rfl rfl (addrOperand_le nnn))
  | ret =>
    obtain ⟨rest, a, hs, rfl⟩ := exec_ret_next h
    exact .ret rfl hs
  | seImm x nn => exact of_eq (exec_seImm ..) (.skip s _)
  | sneImm x nn => exact of_eq (exec_sneImm ..) (.skip s _)
  | seReg x y => exact of_eq (exec_seReg ..) (.skip s _)
  | sneReg x y => exact of_eq (exec_sneReg ..) (.skip s _)
  | skp x => exact of_eq (exec_skp ..) (.skip s _)
  | sknp x => exact of_eq (exec_sknp ..) (.skip s _)
  | ldB x => exact .of_store h
  | storeRegs x => exact .of_store h
  | loadRegs x =>
    obtain ⟨u, -, rfl⟩ := exec_loadRegs_next h
    exact .advance rfl rfl (.inl rfl)
  | drw x y n =>
    obtain ⟨c, -, rfl⟩ := exec_drw_next h
    exact .advance rfl rfl (.inl rfl)
  | ldVxK x =>
    cases hk : KeySet.lowest s.held with
    | some k => exact of_eq (exec_ldVxK_some hk) (.advance rfl rfl (.inl rfl))
    | none => exact of_eq (exec_ldVxK_none hk) (.advance rfl rfl (.inl rfl))
  | sys _ | cls | ldImm _ _ | addImm _ _ | ldReg _ _ | or _ _ | and _ _ | xor _ _ | addReg _ _ | sub _ _ | shr _ _ | subn _ _ | shl _ _
  | rnd _ _ | ldI _ | addI _ | ldF _ | ldVxDt _ | ldDtVx _ | ldStVx _ => exact of_eq rfl (.advance rfl rfl (.inl rfl))

/-- A store that completes lists no byte below the threshold that was not listed. -/
theorem storeBytes_protectedIntact {s u : State} {a : Nat} {bs : List Byte} (h : storeBytes s a bs = .ok u)
    (hs : s.mem.protectedIntact) : u.mem.protectedIntact :=
  fun c hc => (storeBytes_mem h hc).elim (hs c) id

/-- Below the last two addresses the next program counter stays below the bound of R30. -/
theorem pc_add_le {w : Word} (hw : w.toNat < 4094) : (w + 2).toNat ≤ 4095 ∧ (w + 4).toNat ≤ 4097 := by
  have h2 : (2 : Word).toNat = 2 := rfl
  have h4 : (4 : Word).toNat = 4 := rfl
  rw [BitVec.toNat_add, BitVec.toNat_add, h2, h4]; omega

/-- What an instruction fetched from existing memory does keeps the invariant. -/
theorem Flow.inv {s t : State} (h : Flow s t) (hs : s.Inv) (hfetch : s.pc.toNat < 4094) : t.Inv := by
  obtain ⟨hwf, hprot, -, hret⟩ := hs
  obtain ⟨h2, h4⟩ := pc_add_le hfetch
  cases h with
  | advance mem stack pc =>
    refine ⟨mem ▸ hwf, mem ▸ hprot, ?_, stack ▸ hret⟩
    rcases pc with pc | pc <;> rw [pc] <;> omega
  | store stored mem stack pc =>
    exact ⟨mem ▸ storeBytes_wf stored hwf, mem ▸ storeBytes_protectedIntact stored hprot, by rw [pc]; omega, stack ▸ hret⟩
  | jump mem stack pc => exact ⟨mem ▸ hwf, mem ▸ hprot, pc, stack ▸ hret⟩
  | call mem stack pc =>
    refine ⟨mem ▸ hwf, mem ▸ hprot, pc, fun r hr => ?_⟩
    rw [stack, List.mem_append, List.mem_singleton] at hr
    rcases hr with hr | rfl
    · exact hret r hr
    · exact h2
  | ret mem stack =>
    rw [stack] at hret
    have := hret t.pc (by simp)
    exact ⟨mem ▸ hwf, mem ▸ hprot, by omega, fun r hr => hret r (List.mem_append_left _ hr)⟩

/-- Settles O15: an instruction's effect on memory, stack and program counter is one of the five of `Flow`, each of which keeps the bounds. -/
theorem stepKeepsInvariant : Obligations.StepKeepsInvariant := by
  intro s t hs hstep
  obtain ⟨i, u, ⟨-, hfetch, -⟩, hu, rfl⟩ := step_next_iff_fetches.mp hstep
  exact inv_publish_decrementTimers.mpr ((exec_flow hu).inv (inv_aggregate.mpr hs) hfetch)

/-- Installing bytes lists no address below the first of them. -/
theorem installBytes_mem {m : Memory} {a : Nat} {bs : List Byte} {c : Host.Cell} (hc : c ∈ installBytes m a bs) : c ∈ m ∨ a ≤ c.1 := by
  induction bs generalizing m a with
  | nil => exact .inl hc
  | cons b rest ih =>
    rcases ih hc with h | h
    · rcases Memory.mem_put h with ⟨rfl, -⟩ | ⟨h, -⟩
      · exact .inr le_rfl
      · exact .inl h
    · exact .inr (by omega)

/-- Every reset that has a state after it meets the invariant (R251, R256). -/
theorem resetWith_inv {rom : List Byte} {n : Nat} {s : State} (h : resetWith rom n = some s) : s.Inv := by
  unfold resetWith at h
  split at h
  · next hfit =>
    obtain rfl := Option.some.inj h
    refine ⟨installBytes_wf Memory.wf_nil ?_, fun c hc => ?_, (by decide : State.reset.pc.toNat ≤ 0x10FE), by simp [State.reset]⟩
    · rw [maxImage, Config.memSize, Config.progBase] at hfit
      rw [Config.memSize, Config.progBase]; omega
    · exact (installBytes_mem hc).resolve_left (List.not_mem_nil)
  · exact absurd h (by simp)

/-- One move of the core or the host keeps the invariant of a machine that runs; the halted state a fault leaves is exempt (R116). -/
theorem applyMove_inv {m : Move} {s t : State} (hs : s.status = .running → s.Inv) (h : applyMove m s = some t)
    (ht : t.status = .running) : t.Inv := by
  cases m with
  | reset rom => exact resetWith_inv h
  | keys pressed released =>
    obtain rfl := Option.some.inj h
    exact hs ht
  | takeFrame =>
    obtain rfl := Option.some.inj h
    exact hs ht
  | tick =>
    obtain rfl := Option.some.inj h
    revert ht
    unfold coreMove
    cases hrun : s.status with
    | halted f => exact fun ht => absurd (hrun.symm.trans ht) (by simp)
    | running =>
      cases hstep : step s with
      | next u => exact fun _ => stepKeepsInvariant s u (hs hrun) hstep
      | fault f => exact fun ht => absurd ht (by simp [State.haltWith])
      | refused r => exact fun _ => hs hrun

/-- Settles O17, by induction on the moves: each keeps the invariant of a machine that runs. -/
theorem everyInterleavingKeepsInvariant : Obligations.EveryInterleavingKeepsInvariant := by
  intro ms
  induction ms with
  | nil =>
    intro s t hs h ht
    obtain rfl := Option.some.inj h
    exact hs ht
  | cons m rest ih =>
    intro s t hs h ht
    simp only [runMoves] at h
    cases hm : applyMove m s with
    | some u =>
      rw [hm] at h
      exact ih u t (applyMove_inv hs hm) h ht
    | none =>
      rw [hm] at h
      exact absurd h (by simp)

end Sys2Proof.Machine
end

section
/-! The tick's own effects: the frame it publishes and the timers it decrements. -/

namespace Sys2Proof.Machine

/-- The flat sequence is that of the display's rows one after the other. -/
theorem Display.cells_eq_flatten (d : Display) : Display.cells d = d.flatten.toList := by
  simp [Display.cells, Vector.flatten, List.flatMap_def, Vector.toList, Function.comp_def]

theorem Display.cells_length (d : Display) : (Display.cells d).length = 2048 := by
  rw [Display.cells_eq_flatten]
  exact d.flatten.length_toList

/-- Cell `(x, y)` is element `y * WIDTH + x` (R214, decision D8). -/
theorem Display.cells_getElem? (d : Display) {x y : Nat} (hx : x < 64) (hy : y < 32) :
    (Display.cells d)[y * 64 + x]? = some (Display.cell d x y) := by
  have hi : y * 64 + x < 32 * 64 := by omega
  have hdiv : (y * 64 + x) / 64 = y := by omega
  have hmod : (y * 64 + x) % 64 = x := by omega
  rw [Display.cells_eq_flatten, Vector.getElem?_toList, Vector.getElem?_eq_getElem hi, Vector.getElem_flatten]
  simp only [hdiv, hmod, Display.cell, Nat.mod_eq_of_lt hx, Nat.mod_eq_of_lt hy]

/-- Settles O10: the step ends with `publish`, and the flat sequence is the rows one after the other. -/
theorem tickPublishesTheDisplay : Obligations.TickPublishesTheDisplay := by
  intro s t h
  obtain ⟨i, u, -, -, rfl⟩ := step_next_iff_fetches.mp h
  exact ⟨rfl, Display.cells_length _, fun x y => Display.cells_getElem? _⟩

/-- Settles O11: the decrement of the step follows its instruction. -/
theorem tickDecrementsTimersOnce : Obligations.TickDecrementsTimersOnce := by
  intro s t h
  obtain ⟨i, u, hf, hu, rfl⟩ := step_next_iff_fetches.mp h
  exact ⟨i, u, hf, hu, by simp, by simp⟩

theorem footprint_dt (s : State) {i : Instr} (h : ∀ x, i ≠ .ldDtVx x) : (footprint s i).dt = false := by
  cases i with
  | ldDtVx x => exact absurd rfl (h x)
  | _ => rfl

theorem footprint_st (s : State) {i : Instr} (h : ∀ x, i ≠ .ldStVx x) : (footprint s i).st = false := by
  cases i with
  | ldStVx x => exact absurd rfl (h x)
  | _ => rfl

/-- Settles O12: the instruction leaves both timers alone, and one decrement follows it. -/
theorem unsetTimersFallByOne : Obligations.UnsetTimersFallByOne := by
  intro s t i hf hdt hst h
  obtain ⟨j, u, hj, hu, rfl⟩ := step_next_iff_fetches.mp h
  obtain rfl := hf.unique hj
  have kept := exec_unchanged hu
  have hudt : u.dt = s.dt := kept.dt (footprint_dt _ hdt)
  have hust : u.st = s.st := kept.st (footprint_st _ hst)
  simp [hudt, hust]

end Sys2Proof.Machine
end

section
/-! What no instruction but those named writes, read off the footprints (10_state.md rules R21 to R37). -/

namespace Sys2Proof.Machine

theorem footprint_stack (s : State) {i : Instr} (hcall : ∀ nnn, i ≠ .call nnn) (hret : i ≠ .ret) : (footprint s i).stack = false := by
  cases i with
  | call nnn => exact absurd rfl (hcall nnn)
  | ret => exact absurd rfl hret
  | _ => rfl

theorem footprint_i (s : State) {i : Instr} (hldI : ∀ nnn, i ≠ .ldI nnn) (haddI : ∀ x, i ≠ .addI x) (hldF : ∀ x, i ≠ .ldF x) :
    (footprint s i).i = false := by
  cases i with
  | ldI nnn => exact absurd rfl (hldI nnn)
  | addI x => exact absurd rfl (haddI x)
  | ldF x => exact absurd rfl (hldF x)
  | _ => rfl

/-- The registers a footprint names are the destinations of R21 and, under the six instructions of R23, `VF`. -/
theorem mem_footprint_regs {s : State} {i : Instr} {r : Nibble} (h : r ∈ (footprint s i).regs) :
    IsDestination i r ∨ (r = 15 ∧ WritesFlag i) := by
  cases i with
  | loadRegs x =>
    obtain ⟨k, hk, rfl⟩ := List.mem_map.mp h
    have hle : (BitVec.ofNat 4 k).toNat ≤ x.toNat := (Nat.mod_le k _).trans (Nat.le_of_lt_succ (List.mem_range.mp hk))
    exact .inl ⟨0, 0, by simpa using hle⟩
  | ldImm x _ | addImm x _ | ldReg x _ | or x _ | and x _ | xor x _ | ldVxDt x | ldVxK x | rnd x _ =>
    obtain rfl := List.mem_singleton.mp h
    simp [IsDestination]
  | addReg x _ | sub x _ | shr x _ | subn x _ | shl x _ =>
    rcases List.mem_pair.mp h with rfl | rfl
    · simp [IsDestination]
    · simp [WritesFlag]
  | drw _ _ _ => exact .inr ⟨List.mem_singleton.mp h, by simp [WritesFlag]⟩
  | _ => exact absurd h List.not_mem_nil

/-- Settles O25: no footprint but those of `CALL` and `RET` names the stack. -/
theorem onlyCallAndReturnWriteStack : Obligations.OnlyCallAndReturnWriteStack :=
  fun _ s _ hcall hret h => (exec_unchanged h).stack (footprint_stack s hcall hret)

/-- Settles O26: no footprint but those of the three names the address register. -/
theorem onlyThreeInstructionsWriteAddressRegister : Obligations.OnlyThreeInstructionsWriteAddressRegister :=
  fun _ s _ hldI haddI hldF h => (exec_unchanged h).i (footprint_i s hldI haddI hldF)

/-- Settles O27: the registers of a footprint are those of the tables in R21 and R23. -/
theorem registersChangeOnlyAsTabled : Obligations.RegistersChangeOnlyAsTabled :=
  fun _ _ _ r h hdest hflag => (exec_unchanged h).regs r fun hr => (mem_footprint_regs hr).elim hdest hflag

/-- Settles O28: no footprint names a component of the host's side. -/
theorem execLeavesHostSideAlone : Obligations.ExecLeavesHostSideAlone := by
  intro i s t h
  have kept := exec_unchanged h
  exact ⟨kept.held, kept.pressQ, kept.relQ, kept.frame, kept.status⟩

end Sys2Proof.Machine
end

section
/-! The flag-writing instructions of the arithmetic group (43_load_alu.md rules R156 to R160) and `ADD I, Vx` (R171). -/

namespace Sys2Proof.Machine

/-- The default advance, as a number (R113, decision D21). -/
theorem add_two_toNat (w : Word) : (w + 2).toNat = (w.toNat + 2) % 65536 := BitVec.toNat_add w 2

/-- `VF` is register 15 (R22). -/
theorem flagReg_eq : flagReg = 15 := rfl

/-- The flag is 0 or 1 (R22). -/
theorem flagByte_toNat (c : Bool) : (flagByte c).toNat = c.toNat := by cases c <;> rfl

theorem carryFlag_toNat (a b : Byte) : (carryFlag a b).toNat = if 256 ≤ a.toNat + b.toNat then 1 else 0 := by
  rw [carryFlag, flagByte_toNat, Bool.toNat, Bool.cond_decide]

theorem noBorrowFlag_toNat (a b : Byte) : (noBorrowFlag a b).toNat = if b.toNat ≤ a.toNat then 1 else 0 := by
  rw [noBorrowFlag, flagByte_toNat, Bool.toNat, Bool.cond_decide]

theorem shiftRightFlag_toNat (a : Byte) : (shiftRightFlag a).toNat = a.toNat % 2 := by
  rw [shiftRightFlag, flagByte_toNat, BitVec.getLsbD, Nat.toNat_testBit, Nat.pow_zero, Nat.div_one]

theorem shiftLeftFlag_toNat (a : Byte) : (shiftLeftFlag a).toNat = a.toNat / 128 := by
  have := a.isLt
  rw [shiftLeftFlag, flagByte_toNat, BitVec.getLsbD, Nat.toNat_testBit]; omega

/-- A difference of bytes is the difference of their numbers modulo 256. -/
theorem sub_toInt_emod (a b : Byte) : ((a - b).toNat : Int) = (a.toNat - b.toNat : Int) % 256 := by
  have := a.isLt; have := b.isLt
  rw [BitVec.toNat_sub]; omega

/-- What an instruction that writes a result and the flag, and then advances, leaves: the result in another register than `VF`, the flag in `VF`,
and the next program counter. -/
theorem exec_resultFlag {i : Instr} {s : State} {x : Nibble} {result flag : Byte}
    (h : exec i s = .next ((s.setResultFlag x result flag).setPC (s.pc + 2))) :
    ∃ t, exec i s = .next t ∧ (x ≠ 15 → t.getV x = result) ∧ t.getV 15 = flag ∧ t.pc.toNat = (s.pc.toNat + 2) % 65536 ∧
      Unchanged (footprint s i) s t := by
  refine ⟨_, h, fun hx => ?_, ?_, add_two_toNat s.pc, exec_unchanged h⟩
  · rw [State.getV_setPC, State.getV_setResultFlag, flagReg_eq, if_neg hx, if_pos rfl]
  · rw [State.getV_setPC, State.getV_setResultFlag, flagReg_eq, if_pos rfl]

/-- The number the fields of a word of family 8 make. -/
theorem word8_toNat (x y n : Nibble) : (0x8#4 ++ x ++ y ++ n : Word).toNat = 0x8000 + n.toNat + x.toNat * 256 + y.toNat * 16 := by
  have h8 : (0x8#4).toNat = 8 := rfl
  rw [wordXYN_toNat, h8]; omega

/-- The words of family 8 decode by their low nibble. -/
theorem decode_word8 {i : Instr} (hi : i.wellFormed = true) {x y n : Nibble} (he : encode i = 0x8#4 ++ x ++ y ++ n) :
    decode (BitVec.ofNat 16 (0x8000 + n.toNat + x.toNat * 256 + y.toNat * 16)) = .ok i :=
  decode_ofNat hi (by rw [he, word8_toNat])

/-- Settles O42: the wrapped sum, then the carry in `VF`. -/
theorem addSetsCarry : Obligations.AddSetsCarry := by
  intro x y s
  refine ⟨decode_word8 (n := 4) rfl rfl, ?_⟩
  obtain ⟨t, ht, hx, hf, hpc, kept⟩ := exec_resultFlag (exec_addReg x y s)
  exact ⟨t, ht, fun h => by rw [hx h, BitVec.toNat_add], by rw [hf, carryFlag_toNat], hpc, kept⟩

/-- Settles O43: a byte difference is the integer difference modulo 256; the flag compares the same two operands. -/
theorem subtractionsSetNoBorrow : Obligations.SubtractionsSetNoBorrow := by
  intro x y s
  refine ⟨⟨decode_word8 (n := 5) rfl rfl, ?_⟩, decode_word8 (n := 7) rfl rfl, ?_⟩
  · obtain ⟨t, ht, hx, hf, hpc, kept⟩ := exec_resultFlag (exec_sub x y s)
    exact ⟨t, ht, fun h => by rw [hx h, sub_toInt_emod], by rw [hf, noBorrowFlag_toNat], hpc, kept⟩
  · obtain ⟨t, ht, hx, hf, hpc, kept⟩ := exec_resultFlag (exec_subn x y s)
    exact ⟨t, ht, fun h => by rw [hx h, sub_toInt_emod], by rw [hf, noBorrowFlag_toNat], hpc, kept⟩

/-- Settles O44: a shift is a halving or a doubling, and the bit shifted out is the remainder or the quotient by 128. -/
theorem shiftsSetBitShiftedOut : Obligations.ShiftsSetBitShiftedOut := by
  intro x y s
  refine ⟨⟨decode_word8 (n := 6) rfl rfl, ?_⟩, decode_word8 (n := 0xE) rfl rfl, ?_⟩
  · obtain ⟨t, ht, hx, hf, hpc, kept⟩ := exec_resultFlag (exec_shr x y s)
    exact ⟨t, ht, fun h => by rw [hx h, BitVec.toNat_ushiftRight, Nat.shiftRight_eq_div_pow, Nat.pow_one],
      by rw [hf, shiftRightFlag_toNat], hpc, kept⟩
  · obtain ⟨t, ht, hx, hf, hpc, kept⟩ := exec_resultFlag (exec_shl x y s)
    exact ⟨t, ht, fun h => by rw [hx h, BitVec.toNat_shiftLeft, Nat.shiftLeft_eq, Nat.pow_one],
      by rw [hf, shiftLeftFlag_toNat], hpc, kept⟩

/-- The number the fields of a word of family f make. -/
theorem wordF_toNat (x : Nibble) (nn : Byte) : (0xF#4 ++ x ++ nn : Word).toNat = 0xF000 + nn.toNat + x.toNat * 256 := by
  have hF : (0xF#4).toNat = 15 := rfl
  rw [wordXI_toNat, hF]; omega

/-- The words of family f decode by their low byte. -/
theorem decode_wordF {i : Instr} (hi : i.wellFormed = true) {x : Nibble} {nn : Byte} (he : encode i = 0xF#4 ++ x ++ nn) :
    decode (BitVec.ofNat 16 (0xF000 + nn.toNat + x.toNat * 256)) = .ok i :=
  decode_ofNat hi (by rw [he, wordF_toNat])

/-- Settles O47: a 16-bit sum. -/
theorem addToAddressRegister : Obligations.AddToAddressRegister := by
  intro x s
  refine ⟨decode_wordF (nn := 0x1E) rfl rfl, _, exec_addI x s, ?_, add_two_toNat s.pc, exec_unchanged (exec_addI x s)⟩
  rw [State.setPC_i, State.setI_i, BitVec.toNat_add, regOperand16_toNat]

end Sys2Proof.Machine
end

section
/-! The draw (45_display.md rule R181). -/

namespace Sys2Proof.Machine

/-- On the display, the cells under the rows of a draw are those under its sprite. -/
theorem rowsCover_iff_spriteCovers (s : State) (x y n : Nibble) {px py : Nat} (hx : px < 64) (hy : py < 32) :
    RowsCover s (s.getV x).toNat (s.getV y).toNat 0 n.toNat px py ↔ SpriteCovers s x y n px py := by
  simp only [RowsCover, RowCovers, SpriteCovers, effAddr, Nat.zero_add, Nat.mod_eq_of_lt hx, Nat.mod_eq_of_lt hy]

/-- The rows of a draw complete when they all exist; a sprite of no rows reads none. -/
theorem blitRows_of_rows_exist {x y n : Nibble} {s : State} (h : n.toNat = 0 ∨ s.i.toNat + n.toNat ≤ 4095) :
    ∃ c, blitRows s (s.getV x).toNat (s.getV y).toNat 0 { disp := s.disp, collision := false } n.toNat = .ok c := by
  rcases h with h | h
  · exact ⟨_, by rw [h]; rfl⟩
  · exact blitRows_completes s _ _ _ h

open Classical in
/-- The canvas of a draw that completes, in terms of its sprite. -/
theorem drw_canvas_spec {x y n : Nibble} {s : State} {c : Canvas}
    (h : blitRows s (s.getV x).toNat (s.getV y).toNat 0 { disp := s.disp, collision := false } n.toNat = .ok c) :
    (∀ px py, px < 64 → py < 32 →
      Display.cell c.disp px py = if SpriteCovers s x y n px py then !Display.cell s.disp px py else Display.cell s.disp px py) ∧
    (c.collision = true ↔ ∃ px py, px < 64 ∧ py < 32 ∧ Display.cell s.disp px py = true ∧ SpriteCovers s x y n px py) := by
  have hn := n.isLt
  obtain ⟨hcell, hcoll⟩ := blitRows_spec s _ _ n.toNat 0 (by omega) _ c h
  refine ⟨fun px py hx hy => ?_, hcoll.trans ?_⟩
  · simp only [hcell, rowsCover_iff_spriteCovers s x y n hx hy]
  · simp only [Bool.false_eq_true, false_or]
    refine exists₂_congr fun px py => and_congr_right fun hx => and_congr_right fun hy => ?_
    rw [rowsCover_iff_spriteCovers s x y n hx hy, and_comm]

/-- Settles O54: the fault and the completion of the rows, and the sequential draw in closed form. -/
theorem drawXorsSpriteAndReportsCollision : Obligations.DrawXorsSpriteAndReportsCollision := by
  intro x y n s
  refine ⟨decode_ofNat (i := .drw x y n) rfl (wordXYN_toNat 0xD#4 x y n).symm, fun hn h => exec_drw_error (blitRows_faults s _ _ _ hn h),
    fun h => ?_⟩
  obtain ⟨c, hc⟩ := blitRows_of_rows_exist (x := x) (y := y) h
  obtain ⟨hcell, hcoll⟩ := drw_canvas_spec hc
  have hexec := exec_drw_ok hc
  refine ⟨_, hexec, fun px py hx hy => ⟨fun hs => ?_, fun hs => ?_⟩, fun hon => ?_, fun hoff => ?_, add_two_toNat s.pc, exec_unchanged hexec⟩
  · exact (hcell px py hx hy).trans (if_pos hs)
  · exact (hcell px py hx hy).trans (if_neg hs)
  · have : c.collision = true := hcoll.mpr hon
    exact (State.getV_setV_same _ flagReg _).trans (by rw [collisionFlag, this, flagByte_true])
  · have : c.collision = false := by
      rw [Bool.eq_false_iff]
      intro hon
      obtain ⟨px, py, hx, hy, hcellOn, hs⟩ := hcoll.mp hon
      exact hoff px py hx hy hcellOn hs
    exact (State.getV_setV_same _ flagReg _).trans (by rw [collisionFlag, this, flagByte_false])

end Sys2Proof.Machine
end

section
/-! Main memory and the two stores (20_memory.md rules R50 to R65, 44_index_memory.md rules R173 and R174). -/

namespace Sys2Proof.Machine

/-! Reads and writes of a byte or a word -/

/-- Settles O20: the two ranges of each width meet at the last address that has all its bytes. -/
theorem memReadReturnsOrFaults : Obligations.MemReadReturnsOrFaults := by
  intro s a
  refine ⟨?_, fun h => ?_, fun h => ?_⟩
  · rcases memRead_eq s a with ⟨hlt, hr⟩ | ⟨hge, hr⟩
    · rw [hr, if_neg (Nat.not_le.mpr hlt)]
    · rw [hr, if_pos hge]
  · obtain ⟨-, hr⟩ := (memReadWord_eq s a).resolve_left (by omega)
    exact hr
  · obtain ⟨-, hr⟩ := (memReadWord_eq s a).resolve_right (by omega)
    exact ⟨_, hr, wordOfBytes_toNat _ _⟩

/-- Settles O21: of the three things a write can do, the address says which, and the write it makes is to one byte. -/
theorem memWriteWritesOrFaults : Obligations.MemWriteWritesOrFaults := by
  intro s a v
  rcases memWrite_eq s a v with ⟨hlt, hw⟩ | ⟨hlo, hhi, hw⟩ | ⟨hge, hw⟩
  · exact ⟨fun _ => hw, fun h => by omega, fun h => by omega⟩
  · refine ⟨fun h => by omega, fun h => by omega, fun _ _ => ⟨_, hw, Memory.get_put_same s.mem a v, rfl, ?_⟩⟩
    exact (Unchanged.refl _ s).setMem fun b hb => Memory.get_put_of_ne s.mem v (List.mem_singleton.not.mp hb)
  · exact ⟨fun h => by omega, fun _ => hw, fun _ h => by omega⟩

/-! What instructions and steps leave alone -/

theorem footprint_bytes (s : State) {i : Instr} (hldB : ∀ x, i ≠ .ldB x) (hstore : ∀ x, i ≠ .storeRegs x) :
    (footprint s i).bytes = [] := by
  cases i with
  | ldB x => exact absurd rfl (hldB x)
  | storeRegs x => exact absurd rfl (hstore x)
  | _ => rfl

/-- Settles O23: no footprint but those of the two stores names a byte. -/
theorem onlyStoresWriteMemory : Obligations.OnlyStoresWriteMemory := by
  intro i s t hldB hstore h a
  exact (exec_unchanged h).bytes a (by rw [footprint_bytes s hldB hstore]; exact List.not_mem_nil)

/-- A store that completes leaves every byte below the threshold as it was (R54, R61). -/
theorem storeBytes_get_protected {s u : State} {a : Nat} {bs : List Byte} (h : storeBytes s a bs = .ok u) {b : Nat} (hb : b < 512) :
    u.mem.get b = s.mem.get b := by
  obtain ⟨-, hrange, hget⟩ := storeBytes_ok h
  rw [hget b, dif_neg]
  rintro ⟨hle, hlt⟩
  rcases hrange with rfl | ⟨hlo, -⟩
  · exact absurd hlt (Nat.not_lt_zero _)
  · omega

/-- An instruction that completes leaves every byte below the threshold as it was. -/
theorem Flow.get_protected {s t : State} (h : Flow s t) {b : Nat} (hb : b < 512) : t.mem.get b = s.mem.get b := by
  cases h with
  | store stored mem stack pc => rw [mem, storeBytes_get_protected stored hb]
  | advance mem | jump mem | call mem | ret mem => rw [mem]

/-- Settles O18: aggregation, timers and publication leave memory alone, and the instruction writes no protected byte. -/
theorem stepNeverWritesProtectedMemory : Obligations.StepNeverWritesProtectedMemory := by
  intro s t h b hb
  obtain ⟨i, u, -, hu, rfl⟩ := step_next_iff_fetches.mp h
  exact (exec_flow hu).get_protected hb

/-! The two stores -/

/-- Every byte of a completed store is in its place. -/
theorem store_get {s t : State} {a : Nat} {bs : List Byte} (h : advanceAfter (storeBytes s a bs) = .next t) (k : Nat)
    (hk : k < bs.length) : t.mem.get (a + k) = bs[k] := by
  obtain ⟨u, hu, rfl⟩ := store_next h
  obtain ⟨-, -, hget⟩ := storeBytes_ok hu
  have hin : a ≤ a + k ∧ a + k - a < bs.length := by omega
  rw [State.setPC_mem, State.setMem_mem, hget, dif_pos hin]
  simp only [Nat.add_sub_cancel_left]

section
variable {i : Instr} {s : State} {bs : List Byte}

/-- An instruction that stores bytes from `I` on and then advances, where all the addresses may be written: each byte is in its place. -/
theorem exec_store_next (h : exec i s = advanceAfter (storeBytes s s.i.toNat bs)) (hlo : 512 ≤ s.i.toNat)
    (hhi : s.i.toNat + bs.length ≤ 4095) :
    ∃ t, exec i s = .next t ∧ (∀ k (hk : k < bs.length), t.mem.get (effAddr s k) = bs[k]) ∧
      t.pc.toNat = (s.pc.toNat + 2) % 65536 ∧ Unchanged (footprint s i) s t := by
  obtain ⟨u, hu⟩ := storeBytes_completes s hlo hhi
  have hnext : advanceAfter (storeBytes s s.i.toNat bs) = .next (u.setPC (u.pc + 2)) := by rw [hu, advanceAfter_ok]
  have hpc : u.pc = s.pc := by rw [(storeBytes_ok hu).1, State.setMem_pc]
  exact ⟨_, h.trans hnext, store_get hnext, by rw [State.setPC_pc, hpc, add_two_toNat], exec_unchanged (h.trans hnext)⟩

/-- Below the threshold such an instruction faults at its first byte (R54). -/
theorem exec_store_protected (h : exec i s = advanceAfter (storeBytes s s.i.toNat bs)) (hbs : bs ≠ []) (hlo : s.i.toNat < 512) :
    exec i s = .fault (.memoryProtectionViolation s.i.toNat) := by
  rw [h, (storeBytes_faults s hbs).1 hlo, advanceAfter_error]

/-- Past the end of memory such an instruction faults at the first byte that does not exist (R55). -/
theorem exec_store_outOfRange (h : exec i s = advanceAfter (storeBytes s s.i.toNat bs)) (hbs : bs ≠ []) (hlo : 512 ≤ s.i.toNat)
    (hhi : 4095 < s.i.toNat + bs.length) : exec i s = .fault (.memoryOutOfRange (max s.i.toNat 4095)) := by
  rw [h, (storeBytes_faults s hbs).2 hlo hhi, advanceAfter_error]

end

/-- The three digits as numbers (R173): each fits a byte. -/
theorem decimalDigits_toNat (v : Byte) :
    (decimalDigits v)[0].toNat = v.toNat / 100 ∧ (decimalDigits v)[1].toNat = v.toNat / 10 % 10 ∧
      (decimalDigits v)[2].toNat = v.toNat % 10 := by
  have hv := v.isLt
  refine ⟨?_, ?_, ?_⟩ <;> exact Nat.mod_eq_of_lt (by omega)

/-- Settles O49: the store of the three digits of `V[X]`. -/
theorem decimalStore : Obligations.DecimalStore := by
  intro x s
  have hne : decimalDigits (s.getV x) ≠ [] := List.cons_ne_nil _ _
  have hlen := decimalDigits_length (s.getV x)
  refine ⟨decode_wordF (nn := 0x33) rfl rfl, exec_store_protected (exec_ldB x s) hne,
    fun h => exec_store_outOfRange (exec_ldB x s) hne (by omega) (by omega), fun hlo hhi => ?_⟩
  obtain ⟨t, ht, hget, hpc, kept⟩ := exec_store_next (exec_ldB x s) hlo (by omega)
  obtain ⟨hundreds, tens, units⟩ := decimalDigits_toNat (s.getV x)
  have stored (k : Nat) (hk : k < 3) : (t.mem.get (effAddr s k)).toNat = ((decimalDigits (s.getV x))[k]).toNat :=
    congrArg BitVec.toNat (hget k hk)
  exact ⟨t, ht, (stored 0 (by decide)).trans hundreds, (stored 1 (by decide)).trans tens, (stored 2 (by decide)).trans units, hpc, kept⟩

/-- The entry of the register block at a register's index is that register. -/
theorem regBlock_getElem_toNat (s : State) (x r : Nibble) (h : r.toNat < (regBlock s x).length) :
    (regBlock s x)[r.toNat] = s.getV r := by
  rw [regBlock_getElem, BitVec.ofNat_toNat, BitVec.setWidth_eq]

/-- The register block holds `V[0]` at least. -/
theorem regBlock_ne_nil (s : State) (x : Nibble) : regBlock s x ≠ [] :=
  List.ne_nil_of_length_eq_add_one (regBlock_length s x)

/-- Settles O50: the store of the register block. -/
theorem blockStore : Obligations.BlockStore := by
  intro x s
  have hx := x.isLt
  have hlen := regBlock_length s x
  refine ⟨decode_wordF (nn := 0x55) rfl rfl, exec_store_protected (exec_storeRegs x s) (regBlock_ne_nil s x),
    fun h => exec_store_outOfRange (exec_storeRegs x s) (regBlock_ne_nil s x) (by omega) (by omega), fun hlo hhi => ?_⟩
  obtain ⟨t, ht, hget, hpc, kept⟩ := exec_store_next (exec_storeRegs x s) hlo (by omega)
  refine ⟨t, ht, fun r hr => ?_, hpc, kept⟩
  rw [hget r.toNat (by omega), regBlock_getElem_toNat]

/-- A block store that completes has left each register it names in its place, all of them below the end of memory, and has advanced. -/
theorem exec_storeRegs_next {x : Nibble} {s t : State} (h : exec (.storeRegs x) s = .next t) :
    t.pc = s.pc + 2 ∧ s.i.toNat + x.toNat < 4095 ∧ ∀ r : Nibble, r.toNat ≤ x.toNat → t.mem.get (s.i.toNat + r.toNat) = s.getV r := by
  rw [exec_storeRegs] at h
  have hlen := regBlock_length s x
  obtain ⟨u, hu, ht⟩ := store_next h
  obtain ⟨-, hrange, -⟩ := storeBytes_ok hu
  obtain ⟨-, hhi⟩ := hrange.resolve_left (regBlock_ne_nil s x)
  refine ⟨congrArg State.pc ht, by omega, fun r hr => ?_⟩
  rw [store_get h r.toNat (by omega), regBlock_getElem_toNat]

/-- Settles O22: the next fetch reads at `I`, where the block store has left `V[0]` and `V[1]`. -/
theorem nextFetchSeesTheStore : Obligations.NextFetchSeesTheStore := by
  intro x s t hx hi h
  obtain ⟨hpc, hhi, hget⟩ := exec_storeRegs_next h
  have hpc : t.pc = s.i := hpc.trans hi.symm
  have hv0 : t.mem.get s.i.toNat = s.getV 0 := hget 0 (Nat.zero_le _)
  have hv1 : t.mem.get (s.i.toNat + 1) = s.getV 1 := hget 1 hx
  rcases fetch_eq t with ⟨-, hf⟩ | ⟨hge, -⟩
  · rw [hpc, hv0, hv1] at hf
    exact ⟨_, hf, wordOfBytes_toNat _ _⟩
  · rw [hpc] at hge; omega

end Sys2Proof.Machine
end

section
/-! Encoding and decoding (30_encoding.md rules R85 to R94): a word is the word of its fields, and everything the decoder can answer for it. -/

namespace Sys2Proof.Machine

/-! A word is built from its fields (R81, R82) -/

section
variable {w : Word} {f : Nibble}

theorem wordA_of_fields (hF : fieldF w = f) : f ++ fieldNNN w = w := by
  apply BitVec.eq_of_toNat_eq
  rw [← hF, wordA_toNat, fieldF_toNat, fieldNNN_toNat]; omega

theorem wordXI_of_fields (hF : fieldF w = f) {nn : Byte} (hNN : fieldNN w = nn) : f ++ fieldX w ++ nn = w := by
  apply BitVec.eq_of_toNat_eq
  rw [← hF, ← hNN, wordXI_toNat, fieldF_toNat, fieldX_toNat, fieldNN_toNat]; omega

theorem wordXYN_of_fields (hF : fieldF w = f) {n : Nibble} (hN : fieldN w = n) : f ++ fieldX w ++ fieldY w ++ n = w := by
  apply BitVec.eq_of_toNat_eq
  rw [← hF, ← hN, wordXYN_toNat, fieldF_toNat, fieldX_toNat, fieldY_toNat, fieldN_toNat]; omega

end

/-- A `SYS` is well formed unless its word is that of `CLS` or `RET` (R91). -/
theorem sys_wellFormed {nnn : Addr} (hcls : nnn.toNat ≠ 0x0E0) (hret : nnn.toNat ≠ 0x0EE) : (Instr.sys nnn).wellFormed = true := by
  simp only [Instr.wellFormed, Bool.and_eq_true, bne_iff_ne]
  exact ⟨fun h => hcls (congrArg BitVec.toNat h), fun h => hret (congrArg BitVec.toNat h)⟩

/-- The word of a `SYS` is its address. -/
theorem encode_sys_toNat (nnn : Addr) : (encode (.sys nnn)).toNat = nnn.toNat := by
  rw [encode, wordA_toNat, BitVec.toNat_zero, Nat.zero_mul, Nat.zero_add]

/-- The four illegal sets of R93 in the fields the decoder looks at. -/
theorem illegalWord_iff {w : Word} : IllegalWord w.toNat ↔
    (fieldF w = 0x8 ∧ fieldN w ∈ [0x8, 0x9, 0xA, 0xB, 0xC, 0xD, 0xF]) ∨
    (fieldF w = 0x9 ∧ fieldN w ≠ 0) ∨
    (fieldF w = 0xE ∧ fieldNN w ∉ [0x9E, 0xA1]) ∨
    (fieldF w = 0xF ∧ fieldNN w ∉ [0x07, 0x0A, 0x15, 0x18, 0x1E, 0x29, 0x33, 0x55, 0x65]) := by
  simp only [IllegalWord, List.mem_cons, List.not_mem_nil, or_false, BitVec.toNat_eq, ne_eq, fieldF_toNat, fieldN_toNat, fieldNN_toNat,
    BitVec.reduceToNat, BitVec.ofNat_eq_ofNat]

/-- Everything the decoder can answer for a word: an operation, well formed and with that word but for the ignored nibble of family 5, or the
failure that names the word, exactly on the illegal sets. -/
inductive Decoding (w : Word) : Except DecodeError Instr → Prop where
  | instr {i : Instr} (legal : ¬IllegalWord w.toNat) (wf : i.wellFormed = true)
      (word : (encode i).toNat = if w.toNat / 4096 = 5 then w.toNat / 16 * 16 else w.toNat) : Decoding w (.ok i)
  | malformed (illegal : IllegalWord w.toNat) : Decoding w (.error (.malformedInstruction w))

section
variable {w : Word} {f : Nibble}

/-- Outside family 5 the decoder ignores no bit, so the operation's word is the word itself. -/
theorem Decoding.of_encode {i : Instr} (hF : fieldF w = f) (hf : f ≠ 5) (legal : ¬IllegalWord w.toNat) (wf : i.wellFormed = true)
    (word : encode i = w) : Decoding w (.ok i) := by
  have h5 : w.toNat / 4096 ≠ 5 := fun h => hf (BitVec.eq_of_toNat_eq (by rw [← hF, fieldF_toNat, h]; rfl))
  exact .instr legal wf (by rw [word, if_neg h5])

/-- A word of a family that never fails is in none of the illegal sets. -/
theorem not_illegalWord_of_family (hF : fieldF w = f) (hf : f ∉ [0x8#4, 0x9#4, 0xE#4, 0xF#4]) : ¬IllegalWord w.toNat := by
  simp only [List.mem_cons, List.not_mem_nil, or_false, not_or] at hf
  obtain ⟨h8, h9, hE, hF'⟩ := hf
  simp [illegalWord_iff, hF, h8, h9, hE, hF']

theorem decoding_family0 (hF : fieldF w = 0x0#4) : Decoding w (.ok (decodeFamily0 w)) := by
  have legal := not_illegalWord_of_family hF (by decide)
  unfold decodeFamily0
  split
  · next h => exact .of_encode hF (by decide) legal rfl h.symm
  · next hcls =>
    split
    · next h => exact .of_encode hF (by decide) legal rfl h.symm
    · next hret =>
      have word : encode (.sys (fieldNNN w)) = w := wordA_of_fields hF
      have hw : (fieldNNN w).toNat = w.toNat := by rw [← encode_sys_toNat, word]
      have hne {v : Word} (hv : w ≠ v) : (fieldNNN w).toNat ≠ v.toNat := fun e => hv (BitVec.eq_of_toNat_eq (hw.symm.trans e))
      exact .of_encode hF (by decide) legal (sys_wellFormed (hne hcls) (hne hret)) word

/-- Family 5 loses its low nibble (R94, decision D32). -/
theorem decoding_family5 (hF : fieldF w = 0x5#4) : Decoding w (.ok (.seReg (fieldX w) (fieldY w))) := by
  have h5 : w.toNat / 4096 = 5 := by rw [← fieldF_toNat, hF]; rfl
  refine .instr (not_illegalWord_of_family hF (by decide)) rfl ?_
  rw [if_pos h5, encode, wordXYN_toNat, fieldX_toNat, fieldY_toNat, ← hF, fieldF_toNat, BitVec.toNat_zero]; omega

theorem decoding_family8 (hF : fieldF w = 0x8#4) : Decoding w (decodeFamily8 w) := by
  unfold decodeFamily8
  split
  case h_10 =>
    refine .malformed (illegalWord_iff.mpr (.inl ⟨hF, ?_⟩))
    generalize fieldN w = n at *
    revert n
    decide
  case h_1 hN | h_2 hN | h_3 hN | h_4 hN | h_5 hN | h_6 hN | h_7 hN | h_8 hN | h_9 hN =>
    exact .of_encode hF (by decide) (by simp [illegalWord_iff, hF, hN]) rfl (wordXYN_of_fields hF hN)

theorem decoding_family9 (hF : fieldF w = 0x9#4) : Decoding w (decodeFamily9 w) := by
  unfold decodeFamily9
  split
  · next hN => exact .of_encode hF (by decide) (by simp [illegalWord_iff, hF, hN]) rfl (wordXYN_of_fields hF hN)
  · next hN => exact .malformed (illegalWord_iff.mpr (.inr (.inl ⟨hF, hN⟩)))

theorem decoding_familyE (hF : fieldF w = 0xE#4) : Decoding w (decodeFamilyE w) := by
  unfold decodeFamilyE
  split
  case h_3 h1 h2 => exact .malformed (illegalWord_iff.mpr (.inr (.inr (.inl ⟨hF, by simpa using ⟨h1, h2⟩⟩))))
  case h_1 hNN | h_2 hNN =>
    exact .of_encode hF (by decide) (by simp [illegalWord_iff, hF, hNN]) rfl (wordXI_of_fields hF hNN)

theorem decoding_familyF (hF : fieldF w = 0xF#4) : Decoding w (decodeFamilyF w) := by
  unfold decodeFamilyF
  split
  case h_10 h1 h2 h3 h4 h5 h6 h7 h8 h9 =>
    exact .malformed (illegalWord_iff.mpr (.inr (.inr (.inr ⟨hF, by simpa using ⟨h1, h2, h3, h4, h5, h6, h7, h8, h9⟩⟩))))
  case h_1 hNN | h_2 hNN | h_3 hNN | h_4 hNN | h_5 hNN | h_6 hNN | h_7 hNN | h_8 hNN | h_9 hNN =>
    exact .of_encode hF (by decide) (by simp [illegalWord_iff, hF, hNN]) rfl (wordXI_of_fields hF hNN)

end

/-- Family by family (R87 to R89): families 1, 2, a, b carry an address, 3, 4, 6, 7, c a register and an immediate, d two registers and a height;
the others are those above. -/
theorem decode_decoding (w : Word) : Decoding w (decode w) := by
  unfold decode
  split
  case h_1 hF => exact decoding_family0 hF
  case h_2 hF | h_3 hF | h_11 hF | h_12 hF =>
    exact .of_encode hF (by decide) (not_illegalWord_of_family hF (by decide)) rfl (wordA_of_fields hF)
  case h_4 hF | h_5 hF | h_7 hF | h_8 hF | h_13 hF =>
    exact .of_encode hF (by decide) (not_illegalWord_of_family hF (by decide)) rfl (wordXI_of_fields hF rfl)
  case h_6 hF => exact decoding_family5 hF
  case h_9 hF => exact decoding_family8 hF
  case h_10 hF => exact decoding_family9 hF
  case h_14 hF => exact .of_encode hF (by decide) (not_illegalWord_of_family hF (by decide)) rfl (wordXYN_of_fields hF rfl)
  case h_15 hF => exact decoding_familyE hF
  case h_16 =>
    refine decoding_familyF ?_
    generalize fieldF w = f at *
    revert f
    decide

/-- Settles O1: the decoder reads back the fields the encoder has written. -/
theorem decodeUndoesEncode : Obligations.DecodeUndoesEncode :=
  fun _ h => decode_encode h

/-- Settles O2: of the two things the decoder can answer, the word of the operation it answers. -/
theorem encodeUndoesDecode : Obligations.EncodeUndoesDecode := by
  intro w i h
  have hd := decode_decoding w
  rw [h] at hd
  cases hd with
  | instr legal wf word => exact ⟨wf, word⟩

/-- Settles O3: of the two things the decoder can answer, the failure on the illegal sets and the operation off them. -/
theorem illegalWordsFailAndOnlyThey : Obligations.IllegalWordsFailAndOnlyThey := by
  intro w
  have hd := decode_decoding w
  generalize decode w = r at hd
  cases hd with
  | instr legal => exact ⟨fun illegal => absurd illegal legal, fun _ => ⟨_, rfl⟩⟩
  | malformed illegal => exact ⟨fun _ => rfl, fun legal => absurd illegal legal⟩

/-- Settles O4: in family 0 the decoder compares the whole word. -/
theorem familyZeroAlwaysDecodes : Obligations.FamilyZeroAlwaysDecodes := by
  intro w h
  have hF : fieldF w = 0x0#4 := BitVec.eq_of_toNat_eq (by rw [fieldF_toNat, h]; rfl)
  have hNNN : fieldNNN w = BitVec.ofNat 12 w.toNat := BitVec.eq_of_toNat_eq (by rw [fieldNNN_toNat, BitVec.toNat_ofNat])
  have hcls : w = 0x00E0#16 ↔ w.toNat = 0x00E0 := BitVec.toNat_eq
  have hret : w = 0x00EE#16 ↔ w.toNat = 0x00EE := BitVec.toNat_eq
  rw [decode_family0 hF, decodeFamily0, hNNN]
  simp only [hcls, hret]

/-- Settles O5, by running the decoder on the nine words. -/
theorem sampleWordsDecode : Obligations.SampleWordsDecode := by
  unfold Obligations.SampleWordsDecode
  decide

/-- Settles O31: the word is the one `SYS` encodes to, and its execution is the default advance. -/
theorem sysOnlyAdvances : Obligations.SysOnlyAdvances := by
  intro nnn s
  exact ⟨fun hcls hret => decode_ofNat (sys_wellFormed hcls hret) (encode_sys_toNat nnn).symm,
    _, exec_sys nnn s, add_two_toNat s.pc, exec_unchanged (exec_sys nnn s)⟩

end Sys2Proof.Machine
end

section
/-! The fetch and the composition of a step (40_step_cycle.md rules R110 to R118). -/

namespace Sys2Proof.Machine

/-- Below 4094 the fetch gives the word of the two bytes at the program counter (R110). -/
theorem fetch_of_lt {s : State} (h : s.pc.toNat < 4094) :
    fetch s = .ok (wordOfBytes (s.mem.get s.pc.toNat) (s.mem.get (s.pc.toNat + 1))) := by
  obtain ⟨-, hf⟩ := (fetch_eq s).resolve_right (by omega)
  exact hf

/-- From 4094 on the fetch faults (R110). -/
theorem fetch_of_ge {s : State} (h : 4094 ≤ s.pc.toNat) : fetch s = .error (.memoryOutOfRange s.pc.toNat) := by
  obtain ⟨-, hf⟩ := (fetch_eq s).resolve_left (by omega)
  exact hf

/-- Settles O7: the two ranges meet at 4094; a fetch that faults ends the step. -/
theorem fetchReadsTwoBytesBigEndian : Obligations.FetchReadsTwoBytesBigEndian :=
  fun _ => ⟨fun h => ⟨_, fetch_of_lt h, wordOfBytes_toNat _ _⟩, fun h => ⟨fetch_of_ge h, fun hs => step_of_fetch_fault hs (fetch_of_ge h)⟩⟩

/-- Settles O8: the illegal words are those the decoder refuses. -/
theorem illegalWordStopsTheStep : Obligations.IllegalWordStopsTheStep := by
  intro s hs hpc hill
  rw [← wordOfBytes_toNat] at hill ⊢
  have hd := (illegalWordsFailAndOnlyThey _).1 hill
  rw [BitVec.ofNat_toNat, BitVec.setWidth_eq, step_of_malformed hs (fetch_of_lt hpc) hd]

/-- Settles O6: the word fetched is the one the two bytes make. -/
theorem stepExecutesTheDecodedInstruction : Obligations.StepExecutesTheDecodedInstruction := by
  intro s i h
  obtain ⟨hs, w, hw, hi⟩ := fetches_iff.mp h
  exact step_of_decode hs hw hi

end Sys2Proof.Machine
end

section
/-! Which instructions read the inputs of a step, the held keys and the random draw (40_step_cycle.md rule R117). -/

namespace Sys2Proof.Machine

/-- The state with its held keys and its count of draws replaced by functions of them. -/
def State.mapInputs (p : KeySet → KeySet) (q : Nat → Nat) (s : State) : State := { s with held := p s.held, draws := q s.draws }

/-- The instructions that read the held keys (R144, R145, R191). -/
def ReadsKeys (i : Instr) : Prop := ∃ x, i = .skp x ∨ i = .sknp x ∨ i = .ldVxK x

/-- The instruction that reads the random draw (R161). -/
def ReadsDraw (i : Instr) : Prop := ∃ x nn, i = .rnd x nn

section
variable (p : KeySet → KeySet) (q : Nat → Nat)

theorem advanceAfter_map_mapInputs (e : Except Fault State) :
    advanceAfter (e.map (State.mapInputs p q)) = mapNext (State.mapInputs p q) (advanceAfter e) := by
  cases e <;> rfl

theorem skipIf_mapInputs (s : State) (c : Bool) : (s.mapInputs p q).skipIf c = (s.skipIf c).mapInputs p q := by
  cases c <;> rfl

theorem memWrite_mapInputs (s : State) (a : Nat) (b : Byte) :
    memWrite (s.mapInputs p q) a b = (memWrite s a b).map (State.mapInputs p q) := by
  unfold memWrite
  split
  · rfl
  · split <;> rfl

theorem storeBytes_mapInputs (s : State) (a : Nat) (bs : List Byte) :
    storeBytes (s.mapInputs p q) a bs = (storeBytes s a bs).map (State.mapInputs p q) := by
  induction bs generalizing s a with
  | nil => rfl
  | cons b rest ih =>
    rw [storeBytes, storeBytes, memWrite_mapInputs]
    cases memWrite s a b with
    | ok t => exact ih t (a + 1)
    | error f => rfl

theorem loadRegsFrom_mapInputs (s : State) (base k n : Nat) :
    loadRegsFrom (s.mapInputs p q) base k n = (loadRegsFrom s base k n).map (State.mapInputs p q) := by
  induction n generalizing s k with
  | zero => rfl
  | succ n ih =>
    have hread : memRead (s.mapInputs p q) (base + k) = memRead s (base + k) := rfl
    rw [loadRegsFrom, loadRegsFrom, hread]
    cases memRead s (base + k) with
    | ok b => exact ih (s.setV (BitVec.ofNat 4 k) b) (k + 1)
    | error f => rfl

theorem blitRows_mapInputs (s : State) (x y row n : Nat) (c : Canvas) :
    blitRows (s.mapInputs p q) x y row c n = blitRows s x y row c n := by
  induction n generalizing row c with
  | zero => rfl
  | succ n ih =>
    have hread : memRead (s.mapInputs p q) ((s.mapInputs p q).i.toNat + row) = memRead s (s.i.toNat + row) := rfl
    rw [blitRows, blitRows, hread]
    cases memRead s (s.i.toNat + row) with
    | ok b => exact ih (row + 1) _
    | error f => rfl

theorem exec_drw_mapInputs (x y n : Nibble) (s : State) :
    exec (.drw x y n) (s.mapInputs p q) = mapNext (State.mapInputs p q) (exec (.drw x y n) s) := by
  have hrows := blitRows_mapInputs p q s (s.getV x).toNat (s.getV y).toNat 0 n.toNat { disp := s.disp, collision := false }
  cases hb : blitRows s (s.getV x).toNat (s.getV y).toNat 0 { disp := s.disp, collision := false } n.toNat with
  | ok c =>
    rw [exec_drw_ok hb]
    exact exec_drw_ok (hrows.trans hb)
  | error f =>
    rw [exec_drw_error hb]
    exact exec_drw_error (hrows.trans hb)

theorem exec_ret_mapInputs (s : State) : exec .ret (s.mapInputs p q) = mapNext (State.mapInputs p q) (exec .ret s) := by
  rcases List.eq_nil_or_concat' s.stack with h | ⟨rest, a, h⟩
  · rw [exec_ret_of_empty h]
    exact exec_ret_of_empty h
  · rw [exec_ret_of_append h]
    exact exec_ret_of_append h

variable {p q}

/-- An instruction does the same whatever the inputs it does not read are (R117). The last group holds those that neither branch nor fault: both
sides are the same field writes. -/
theorem exec_mapInputs {i : Instr} (hp : ReadsKeys i → p = id) (hq : ReadsDraw i → q = id) (s : State) :
    exec i (s.mapInputs p q) = mapNext (State.mapInputs p q) (exec i s) := by
  cases i with
  | skp x =>
    obtain rfl := hp ⟨x, .inl rfl⟩
    exact congrArg Host.Outcome.next (skipIf_mapInputs id q s _)
  | sknp x =>
    obtain rfl := hp ⟨x, .inr (.inl rfl)⟩
    exact congrArg Host.Outcome.next (skipIf_mapInputs id q s _)
  | ldVxK x =>
    obtain rfl := hp ⟨x, .inr (.inr rfl)⟩
    cases hk : KeySet.lowest s.held with
    | some k =>
      rw [exec_ldVxK_some hk]
      exact exec_ldVxK_some hk
    | none =>
      rw [exec_ldVxK_none hk]
      exact exec_ldVxK_none hk
  | rnd x nn =>
    obtain rfl := hq ⟨x, nn, rfl⟩
    rfl
  | seImm _ _ | sneImm _ _ | seReg _ _ | sneReg _ _ => exact congrArg Host.Outcome.next (skipIf_mapInputs p q s _)
  | ret => exact exec_ret_mapInputs p q s
  | drw x y n => exact exec_drw_mapInputs p q x y n s
  | ldB _ | storeRegs _ => exact (congrArg _ (storeBytes_mapInputs p q s _ _)).trans (advanceAfter_map_mapInputs p q _)
  | loadRegs _ => exact (congrArg _ (loadRegsFrom_mapInputs p q s _ _ _)).trans (advanceAfter_map_mapInputs p q _)
  | sys _ | cls | jp _ | call _ | ldImm _ _ | addImm _ _ | ldReg _ _ | or _ _ | and _ _ | xor _ _ | addReg _ _ | sub _ _ | shr _ _
  | subn _ _ | shl _ _ | ldI _ | jpV0 _ | ldVxDt _ | ldDtVx _ | ldStVx _ | addI _ | ldF _ => rfl

end

/-- Settles O30: writing the held keys alone, or the count of draws alone, is one of the replacements that `exec_mapInputs` speaks of. -/
theorem onlyKeyAndRandomInstructionsReadInputs : Obligations.OnlyKeyAndRandomInstructionsReadInputs := by
  intro i s
  refine ⟨fun hskp hsknp hldVxK h => ?_, fun hrnd n => ?_⟩
  · have hkeys : ¬ReadsKeys i := by
      rintro ⟨x, hx | hx | hx⟩
      · exact hskp x hx
      · exact hsknp x hx
      · exact hldVxK x hx
    exact exec_mapInputs (p := fun _ => h) (q := id) (absurd · hkeys) (fun _ => rfl) s
  · have hdraw : ¬ReadsDraw i := fun ⟨x, nn, hx⟩ => hrnd x nn hx
    exact exec_mapInputs (p := id) (q := fun _ => n) (fun _ => rfl) (absurd · hdraw) s

end Sys2Proof.Machine
end

section
/-! Instructions that write one register and advance: `ADD Vx, byte` (R151), the bitwise operations (R153 to R155) and `RND` (R161) of
43_load_alu.md. -/

namespace Sys2Proof.Machine

/-- What an instruction that writes one register and then advances leaves. -/
theorem exec_setV {i : Instr} {s : State} {x : Nibble} {b : Byte} (h : exec i s = .next ((s.setV x b).setPC (s.pc + 2))) :
    ∃ t, exec i s = .next t ∧ t.getV x = b ∧ t.pc.toNat = (s.pc.toNat + 2) % 65536 ∧ Unchanged { regs := [x] } s t :=
  ⟨_, h, State.getV_setV_same s x b, add_two_toNat s.pc, ((Unchanged.refl _ s).setV (List.mem_singleton_self x) b).setPC _⟩

/-- Settles O40: a byte sum. -/
theorem addImmediateWraps : Obligations.AddImmediateWraps := by
  intro x nn s
  refine ⟨decode_ofNat rfl (wordXI_toNat 0x7#4 x nn).symm, ?_⟩
  obtain ⟨t, ht, hx, hpc, kept⟩ := exec_setV (exec_addImm x nn s)
  exact ⟨t, ht, by rw [hx, BitVec.toNat_add], hpc, kept⟩

/-- Settles O41: the bits of the three results. -/
theorem bitwiseOperations : Obligations.BitwiseOperations := by
  intro x y s
  refine ⟨⟨decode_word8 (n := 1) rfl rfl, ?_⟩, ⟨decode_word8 (n := 2) rfl rfl, ?_⟩, decode_word8 (n := 3) rfl rfl, ?_⟩
  · obtain ⟨t, ht, hx, hpc, kept⟩ := exec_setV (exec_or x y s)
    exact ⟨t, ht, fun k => by rw [hx, BitVec.getLsbD_or], hpc, kept⟩
  · obtain ⟨t, ht, hx, hpc, kept⟩ := exec_setV (exec_and x y s)
    exact ⟨t, ht, fun k => by rw [hx, BitVec.getLsbD_and], hpc, kept⟩
  · obtain ⟨t, ht, hx, hpc, kept⟩ := exec_setV (exec_xor x y s)
    exact ⟨t, ht, fun k => by rw [hx, BitVec.getLsbD_xor], hpc, kept⟩

/-- Settles O45: the draw is the free byte of the count before, and the count is one more after. -/
theorem randomStoresMaskedDraw : Obligations.RandomStoresMaskedDraw := by
  intro x nn s
  have hexec := exec_rnd x nn s
  refine ⟨decode_ofNat rfl (wordXI_toNat 0xC#4 x nn).symm, _, hexec, fun k => ?_, rfl, add_two_toNat s.pc, exec_unchanged hexec⟩
  rw [State.getV_setPC, State.getV_setDraws, State.getV_setV_same, BitVec.getLsbD_and]

end Sys2Proof.Machine
end

section
/-! The glyph address (R172) and the block load (R175) of 44_index_memory.md. -/

namespace Sys2Proof.Machine

/-- Settles O48: the glyph address of a byte does not wrap. -/
theorem glyphAddressIsFiveTimesDigit : Obligations.GlyphAddressIsFiveTimesDigit := by
  intro x s
  have hexec := exec_ldF x s
  exact ⟨decode_wordF (nn := 0x29) rfl rfl, _, hexec, glyphAddr_toNat (s.getV x), add_two_toNat s.pc, exec_unchanged hexec⟩

/-- Settles O51: the fault and the completion of the loads, and what each register then holds. -/
theorem blockLoad : Obligations.BlockLoad := by
  intro x s
  have hx := x.isLt
  refine ⟨decode_wordF (nn := 0x65) rfl rfl, fun h => ?_, fun h => ?_⟩
  · rw [exec_loadRegs, loadRegsFrom_faults s (Nat.succ_ne_zero _) (by omega), advanceAfter_error, Nat.add_zero]
  · obtain ⟨u, hu⟩ := loadRegsFrom_completes s (base := s.i.toNat) (k := 0) (n := x.toNat + 1) (by omega)
    have hexec : exec (.loadRegs x) s = .next (u.setPC (u.pc + 2)) := by rw [exec_loadRegs, hu, advanceAfter_ok]
    obtain ⟨hregs, -, hv⟩ := loadRegsFrom_ok (by omega) hu
    have hpc : u.pc = s.pc := by rw [hregs]
    refine ⟨_, hexec, fun r hr => ?_, by rw [State.setPC_pc, hpc, add_two_toNat], exec_unchanged hexec⟩
    rw [State.getV_setPC, hv r, if_pos (by omega), effAddr]

end Sys2Proof.Machine
end

section
/-! The instructions that read the held keys: the key skips of 42_skip.md and `LD Vx, K` (R191) of 46_timer_key.md. -/

namespace Sys2Proof.Machine

/-- A held value is the identifier of a held key. -/
theorem KeySet.holds_iff {h : KeySet} {n : Nat} : KeySet.holds h n = true ↔ ∃ k : KeyId, n = k.val ∧ h[k.val] = true := by
  refine ⟨fun hn => ?_, fun ⟨k, hk, hheld⟩ => by rw [hk, KeySet.holds_of_lt, hheld]⟩
  have hlt : n < 16 := by
    by_contra hge
    rw [KeySet.holds_of_ge h (Nat.le_of_not_lt hge)] at hn
    exact Bool.false_ne_true hn
  exact ⟨⟨n, hlt⟩, rfl, (KeySet.holds_of_lt h ⟨n, hlt⟩).symm.trans hn⟩

/-- A value that is not held is the identifier of no held key, and of no key at all from 16 on (decision D16). -/
theorem KeySet.holds_eq_false_iff {h : KeySet} {n : Nat} : KeySet.holds h n = false ↔ ∀ k : KeyId, n = k.val → h[k.val] = false := by
  rw [← Bool.not_eq_true, KeySet.holds_iff]
  simp only [not_exists, not_and, Bool.not_eq_true]

/-- What a skip leaves: only the program counter moves, by 4 when its condition holds and by 2 when not (R113). -/
theorem exec_skip {i : Instr} {s : State} {c : Bool} (h : exec i s = .next (s.setPC (if c then s.pc + 4 else s.pc + 2))) :
    ∃ t, exec i s = .next t ∧ Unchanged {} s t ∧ (c = true → t.pc.toNat = (s.pc.toNat + 4) % 65536) ∧
      (c = false → t.pc.toNat = (s.pc.toNat + 2) % 65536) := by
  refine ⟨_, h, (Unchanged.refl _ s).setPC _, ?_, ?_⟩
  · rintro rfl
    exact BitVec.toNat_add s.pc 4
  · rintro rfl
    exact add_two_toNat s.pc

/-- A word of a family, a register and a low byte decodes to the operation encoded by those fields. -/
theorem decode_wordXI {i : Instr} (hi : i.wellFormed = true) {f x : Nibble} {nn : Byte} (he : encode i = f ++ x ++ nn) :
    decode (BitVec.ofNat 16 (f.toNat * 4096 + nn.toNat + x.toNat * 256)) = .ok i :=
  decode_ofNat hi (by rw [he, wordXI_toNat, Nat.add_right_comm])

/-- Settles O38: the two skips test the same condition, one of them its negation. -/
theorem keySkips : Obligations.KeySkips := by
  intro x s
  refine ⟨⟨decode_wordXI (f := 0xE) (nn := 0x9E) rfl rfl, ?_⟩, decode_wordXI (f := 0xE) (nn := 0xA1) rfl rfl, ?_⟩
  · obtain ⟨t, ht, kept, hskip, hstay⟩ := exec_skip (exec_skp x s)
    exact ⟨t, ht, kept, fun h => hskip (KeySet.holds_iff.mpr h), fun h => hstay (KeySet.holds_eq_false_iff.mpr h)⟩
  · obtain ⟨t, ht, kept, hskip, hstay⟩ := exec_skip (exec_sknp x s)
    exact ⟨t, ht, kept, fun h => hstay (by rw [KeySet.holds_iff.mpr h, Bool.not_true]),
      fun h => hskip (by rw [KeySet.holds_eq_false_iff.mpr h, Bool.not_false])⟩

/-- The lowest held key, among the identifiers. -/
theorem KeySet.lowest_of_held {h : KeySet} {k : KeyId} (hk : h[k.val] = true) (hlow : ∀ j : KeyId, j < k → h[j.val] = false) :
    KeySet.lowest h = some k.val :=
  KeySet.lowest_eq_some.mpr ⟨by rw [KeySet.holds_of_lt, hk], k.isLt,
    fun j hj => (KeySet.holds_of_lt h ⟨j, hj.trans k.isLt⟩).trans (hlow ⟨j, hj.trans k.isLt⟩ hj)⟩

/-- Settles O57: there is a lowest held key or no held key. -/
theorem keyWaitTakesLowestAndNeverBlocks : Obligations.KeyWaitTakesLowestAndNeverBlocks := by
  intro x s
  refine ⟨decode_wordF (nn := 0x0A) rfl rfl, ?_⟩
  cases hl : KeySet.lowest s.held with
  | some n =>
    obtain ⟨t, ht, hx, hpc, kept⟩ := exec_setV (exec_ldVxK_some (x := x) hl)
    refine ⟨t, ht, hpc, fun k hk hlow => ⟨?_, kept⟩, fun hnone => ?_⟩
    · obtain rfl : n = k.val := Option.some.inj (hl.symm.trans (KeySet.lowest_of_held hk hlow))
      rw [hx, BitVec.toNat_ofNat, Nat.mod_eq_of_lt (by omega)]
    · exact absurd (hl.symm.trans (KeySet.lowest_eq_none.mpr hnone)) (Option.some_ne_none n)
  | none =>
    have hexec := exec_ldVxK_none (x := x) hl
    refine ⟨_, hexec, add_two_toNat s.pc, fun k hk _ => ?_, fun _ => (Unchanged.refl _ s).setPC _⟩
    exact absurd (hk.symm.trans (KeySet.lowest_eq_none.mp hl k)) (by decide)

end Sys2Proof.Machine
end

section
/-! Control transfer (41_control_flow.md rules R131 to R134). -/

namespace Sys2Proof.Machine

/-- Settles O32: a stack is empty, or it has a last element, which the return pops. -/
theorem returnPopsIntoProgramCounter : Obligations.ReturnPopsIntoProgramCounter := by
  refine ⟨decode_encode (i := .ret) rfl, fun s => ⟨exec_ret_of_empty, fun rest a h => ?_⟩⟩
  have hexec := exec_ret_of_append h
  exact ⟨_, hexec, rfl, rfl, exec_unchanged hexec⟩

/-- Settles O33: a 12-bit address, and its 16-bit sum with a byte. -/
theorem jumpsSetProgramCounter : Obligations.JumpsSetProgramCounter := by
  intro nnn s
  refine ⟨⟨decode_ofNat rfl (wordA_toNat 0x1#4 nnn).symm, _, exec_jp nnn s, addrOperand_toNat nnn, exec_unchanged (exec_jp nnn s)⟩,
    decode_ofNat rfl (wordA_toNat 0xB#4 nnn).symm, _, exec_jpV0 nnn s, ?_, exec_unchanged (exec_jpV0 nnn s)⟩
  rw [State.setPC_pc, BitVec.toNat_add, addrOperand_toNat, regOperand16_toNat]

/-- Settles O34: the return address is that of the default advance. -/
theorem callPushesReturnAddress : Obligations.CallPushesReturnAddress := by
  intro nnn s
  exact ⟨decode_ofNat rfl (wordA_toNat 0x2#4 nnn).symm, _, s.pc + 2, exec_call nnn s, addrOperand_toNat nnn, rfl, add_two_toNat s.pc,
    exec_unchanged (exec_call nnn s)⟩

/-- A return right after a call leaves what the default advance from before the call leaves: it pops what the call pushed. -/
theorem exec_ret_after_call {nnn : Addr} {s t : State} (h : exec (.call nnn) s = .next t) : exec .ret t = .next (s.setPC (s.pc + 2)) := by
  obtain rfl := Host.Outcome.next.inj ((exec_call nnn s).symm.trans h)
  have hpushed : ((s.setStack (s.stack ++ [s.pc + 2])).setPC (addrOperand nnn)).stack = s.stack ++ [s.pc + 2] := rfl
  exact exec_ret_of_append hpushed

/-- Settles O35: call and return together only advance the program counter. -/
theorem callThenReturnRestores : Obligations.CallThenReturnRestores :=
  fun _ s _ h => ⟨_, exec_ret_after_call h, add_two_toNat s.pc, rfl, (Unchanged.refl _ s).setPC _⟩

end Sys2Proof.Machine
end

section
/-! The skips that compare a register with an immediate (R140, R141) or with a register (R142, R143) of 42_skip.md. -/

namespace Sys2Proof.Machine

/-- A skip whose tested bit says `p` moves the program counter by 4 when `p` holds and by 2 when not, and nothing else (R113). -/
theorem exec_skip_of_iff {i : Instr} {s : State} {c : Bool} {p : Prop} [Decidable p] (hc : c = true ↔ p)
    (h : exec i s = .next (s.setPC (if c then s.pc + 4 else s.pc + 2))) :
    ∃ t, exec i s = .next t ∧ t.pc.toNat = (s.pc.toNat + if p then 4 else 2) % 65536 ∧ Unchanged {} s t := by
  obtain ⟨t, ht, kept, hskip, hstay⟩ := exec_skip h
  refine ⟨t, ht, ?_, kept⟩
  by_cases hp : p
  · rw [if_pos hp]
    exact hskip (hc.mpr hp)
  · rw [if_neg hp]
    exact hstay (Bool.eq_false_iff.mpr (mt hc.mp hp))

/-- A skip on equal operands (R140, R142). -/
theorem exec_skip_beq {i : Instr} {s : State} {a b : Byte} (h : exec i s = .next (s.setPC (if a == b then s.pc + 4 else s.pc + 2))) :
    ∃ t, exec i s = .next t ∧ t.pc.toNat = (s.pc.toNat + if a = b then 4 else 2) % 65536 ∧ Unchanged {} s t :=
  exec_skip_of_iff beq_iff_eq h

/-- A skip on different operands (R141, R143). -/
theorem exec_skip_bne {i : Instr} {s : State} {a b : Byte} (h : exec i s = .next (s.setPC (if a != b then s.pc + 4 else s.pc + 2))) :
    ∃ t, exec i s = .next t ∧ t.pc.toNat = (s.pc.toNat + if a = b then 2 else 4) % 65536 ∧ Unchanged {} s t := by
  rw [← ite_not]
  exact exec_skip_of_iff bne_iff_ne h

/-- The words of family 5 decode by their register fields; the low nibble is ignored (R94, decision D32). -/
theorem decode_word5 (x y n : Nibble) : decode (0x5#4 ++ x ++ y ++ n) = .ok (.seReg x y) := by
  rw [decode_family5 (fieldF_wordXYN ..), fieldX_wordXYN, fieldY_wordXYN]

/-- Settles O36: one skip tests equality with the immediate, the other its negation. -/
theorem immediateSkips : Obligations.ImmediateSkips :=
  fun x nn s =>
    ⟨⟨decode_ofNat rfl (wordXI_toNat 0x3#4 x nn).symm, exec_skip_beq (exec_seImm x nn s)⟩,
      decode_ofNat rfl (wordXI_toNat 0x4#4 x nn).symm, exec_skip_bne (exec_sneImm x nn s)⟩

/-- Settles O37: one skip tests equality of the registers, the other its negation. -/
theorem registerSkips : Obligations.RegisterSkips :=
  fun x y s =>
    ⟨⟨fun n => (congrArg decode (wordXYN_ofNat 0x5#4 x y n)).trans (decode_word5 x y n), exec_skip_beq (exec_seReg x y s)⟩,
      decode_ofNat rfl (wordXYN_toNat 0x9#4 x y 0x0#4).symm, exec_skip_bne (exec_sneReg x y s)⟩

end Sys2Proof.Machine
end

section
/-! The register loads `LD Vx, byte` (R150) and `LD Vx, Vy` (R152) of 43_load_alu.md. -/

namespace Sys2Proof.Machine

/-- Settles O39: both loads write one register and advance, and the register reads back the operand. -/
theorem loadImmediateAndCopy : Obligations.LoadImmediateAndCopy :=
  fun x y nn s =>
    ⟨⟨decode_ofNat rfl (wordXI_toNat 0x6#4 x nn).symm, exec_setV (exec_ldImm x nn s)⟩,
      decode_word8 (n := 0) rfl rfl, exec_setV (exec_ldReg x y s)⟩

end Sys2Proof.Machine
end

section
/-! The address register load `LD I, addr` (R170) of 44_index_memory.md. -/

namespace Sys2Proof.Machine

/-- Settles O46: the 12-bit address is widened, so every one of them, 0xFFF included, is loaded as it stands. -/
theorem loadAddressRegister : Obligations.LoadAddressRegister := by
  intro nnn s
  have hexec := exec_ldI nnn s
  exact ⟨decode_ofNat rfl (wordA_toNat 0xA#4 nnn).symm, _, hexec, addrOperand_toNat nnn, add_two_toNat s.pc, exec_unchanged hexec⟩

end Sys2Proof.Machine
end

section
/-! The three timer moves (46_timer_key.md rules R190, R192, R193), in the instruction and in the step, whose decrement (R27) follows it. -/

namespace Sys2Proof.Machine

/-- The step over an instruction that is fetched and completes, with the timers and the frame after it. -/
theorem Fetches.step_eq {i : Instr} {s u : State} (hf : Fetches s i) (hu : exec i (aggregate s) = .next u) :
    step s = .next (publish (decrementTimers u)) :=
  step_next_iff_fetches.mpr ⟨i, u, hf, hu, rfl⟩

@[simp] theorem State.getV_aggregate (s : State) (r : Nibble) : (aggregate s).getV r = s.getV r := rfl
@[simp] theorem State.getV_publish (s : State) (r : Nibble) : (publish s).getV r = s.getV r := rfl
@[simp] theorem State.getV_decrementTimers (s : State) (r : Nibble) : (decrementTimers s).getV r = s.getV r := rfl

/-- Settles O56: the step runs the same move on the state after input aggregation, which holds the same registers and timers, and then the
decrement acts on the timer the move left. -/
theorem timerMoves : Obligations.TimerMoves := by
  intro x s
  refine ⟨⟨decode_wordF (nn := 0x07) rfl rfl, exec_setV (exec_ldVxDt x s), fun hf => ?_⟩,
    ⟨decode_wordF (nn := 0x15) rfl rfl, ?_, fun hf => ?_⟩, decode_wordF (nn := 0x18) rfl rfl, ?_, fun hf => ?_⟩
  · exact ⟨_, hf.step_eq (exec_ldVxDt ..), by simp, by simp⟩
  · exact ⟨_, exec_ldDtVx x s, rfl, add_two_toNat s.pc, exec_unchanged (exec_ldDtVx x s)⟩
  · exact ⟨_, hf.step_eq (exec_ldDtVx ..), by simp⟩
  · exact ⟨_, exec_ldStVx x s, rfl, add_two_toNat s.pc, exec_unchanged (exec_ldStVx x s)⟩
  · exact ⟨_, hf.step_eq (exec_ldStVx ..), by simp⟩

end Sys2Proof.Machine
end

section
/-! The faults an instruction can raise (60_exceptions.md rules R200 to R204), and that a step is never refused. -/

namespace Sys2Proof.Machine

/-- Everything an instruction can answer: a next state, or a fault with one of the causes of R202 to R204. -/
inductive Answers (i : Instr) (s : State) : Result → Prop where
  | completes (t : State) : Answers i s (.next t)
  /-- A return on the empty stack (R203). -/
  | underflow (instr : i = .ret) (empty : s.stack = []) : Answers i s (.fault (.stackUnderflow s.pc))
  /-- A store from below the threshold on (R202). -/
  | isProtected (instr : ∃ x, i = .ldB x ∨ i = .storeRegs x) (low : s.i.toNat < 512) :
      Answers i s (.fault (.memoryProtectionViolation s.i.toNat))
  /-- A transfer that reaches past the end of memory (R204). -/
  | outOfRange (instr : ∃ x y n, i = .ldB x ∨ i = .storeRegs x ∨ i = .loadRegs x ∨ i = .drw x y n) :
      Answers i s (.fault (.memoryOutOfRange (max s.i.toNat 4095)))

/-- A store from `I` on: the threshold and the end of memory bound the addresses it may write. -/
theorem Answers.of_store {i : Instr} {s : State} {bs : List Byte} (h : exec i s = advanceAfter (storeBytes s s.i.toNat bs)) (hbs : bs ≠ [])
    {x : Nibble} (hi : i = .ldB x ∨ i = .storeRegs x) : Answers i s (exec i s) := by
  by_cases hlo : s.i.toNat < 512
  · rw [exec_store_protected h hbs hlo]
    exact .isProtected ⟨x, hi⟩ hlo
  · by_cases hhi : s.i.toNat + bs.length ≤ 4095
    · obtain ⟨t, ht, -⟩ := exec_store_next h (by omega) hhi
      exact ht ▸ .completes t
    · rw [exec_store_outOfRange h hbs (by omega) (by omega)]
      exact .outOfRange ⟨x, 0, 0, hi.imp_right .inl⟩

/-- A block load completes when its last address exists. -/
theorem answers_loadRegs (x : Nibble) (s : State) : Answers (.loadRegs x) s (exec (.loadRegs x) s) := by
  rw [exec_loadRegs]
  by_cases hhi : s.i.toNat + 0 + (x.toNat + 1) ≤ 4095
  · obtain ⟨t, ht⟩ := loadRegsFrom_completes s hhi
    rw [ht]
    exact .completes _
  · rw [loadRegsFrom_faults s (by omega) (by omega)]
    exact .outOfRange ⟨x, 0, 0, .inr (.inr (.inl rfl))⟩

/-- A draw completes when its sprite has no rows or its last row exists. -/
theorem answers_drw (x y n : Nibble) (s : State) : Answers (.drw x y n) s (exec (.drw x y n) s) := by
  by_cases hrows : n.toNat = 0 ∨ s.i.toNat + n.toNat ≤ 4095
  · obtain ⟨c, hc⟩ := blitRows_of_rows_exist hrows
    exact exec_drw_ok hc ▸ .completes _
  · rw [exec_drw_error (blitRows_faults s _ _ _ (by omega) (by omega))]
    exact .outOfRange ⟨x, y, n, .inr (.inr (.inr rfl))⟩

/-- Every instruction answers one of the four; all but five always complete. -/
theorem exec_answers (i : Instr) (s : State) : Answers i s (exec i s) := by
  cases i with
  | ret =>
    rcases List.eq_nil_or_concat' s.stack with he | ⟨rest, a, he⟩
    · exact exec_ret_of_empty he ▸ .underflow rfl he
    · exact exec_ret_of_append he ▸ .completes _
  | ldB x => exact .of_store (exec_ldB x s) (List.cons_ne_nil _ _) (.inl rfl)
  | storeRegs x => exact .of_store (exec_storeRegs x s) (regBlock_ne_nil s x) (.inr rfl)
  | loadRegs x => exact answers_loadRegs x s
  | drw x y n => exact answers_drw x y n s
  | _ => exact .completes _

/-- No answer is a refusal: every instruction has a meaning (R112). -/
theorem exec_ne_refused (i : Instr) (s : State) (r : Refusal) : exec i s ≠ .refused r := by
  intro h
  have answers := exec_answers i s
  rw [h] at answers
  cases answers

/-- Settles O29: each answer that is a fault is one of those listed. -/
theorem executeFaultsHaveListedCauses : Obligations.ExecuteFaultsHaveListedCauses := by
  intro i s
  refine ⟨exec_ne_refused i s, fun f hf => ?_⟩
  have answers := exec_answers i s
  rw [hf] at answers
  cases answers with
  | underflow instr empty => exact .inl ⟨instr, empty, rfl⟩
  | isProtected instr low => exact .inr (.inl ⟨instr, low, rfl⟩)
  | outOfRange instr => exact .inr (.inr ⟨instr, rfl⟩)

/-- A step refuses only what `exec` refuses, so it never does. -/
theorem step_ne_refused (s : State) (r : Refusal) : step s ≠ .refused r := by
  cases hs : s.status with
  | halted f => simp [step_of_halted hs]
  | running =>
    cases hf : fetch s with
    | error f => simp [step_of_fetch_fault hs hf]
    | ok w =>
      cases hd : decode w with
      | error e => simp [step_of_malformed hs hf hd]
      | ok i =>
        rw [step_of_decode hs hf hd]
        cases he : exec i (aggregate s) with
        | next u => simp
        | fault f => simp
        | refused r => exact absurd he (exec_ne_refused i (aggregate s) r)

end Sys2Proof.Machine
end

section
/-! Input aggregation, halting and the frame slot along the moves of the two agents (60_exceptions.md rules R206, R207, R212 to R218). -/

namespace Sys2Proof.Machine

@[simp] theorem publish_held (s : State) : (publish s).held = s.held := rfl
@[simp] theorem publish_pressQ (s : State) : (publish s).pressQ = s.pressQ := rfl
@[simp] theorem publish_relQ (s : State) : (publish s).relQ = s.relQ := rfl
@[simp] theorem decrementTimers_held (s : State) : (decrementTimers s).held = s.held := rfl
@[simp] theorem decrementTimers_pressQ (s : State) : (decrementTimers s).pressQ = s.pressQ := rfl
@[simp] theorem decrementTimers_relQ (s : State) : (decrementTimers s).relQ = s.relQ := rfl

/-- Settles O9: after the aggregation nothing in the tick touches the held set or the queues. -/
theorem tickFoldsKeyEvents : Obligations.TickFoldsKeyEvents := by
  intro s t h
  obtain ⟨i, u, -, hu, rfl⟩ := step_next_iff_fetches.mp h
  have kept := exec_unchanged hu
  refine ⟨fun k => ?_, kept.pressQ, kept.relQ⟩
  rw [publish_held, decrementTimers_held, kept.held, aggregate_held_get]
  simp

/-! Moves -/

/-- A sequence of moves ends where its first move and then the others lead. -/
theorem runMoves_cons {m : Move} {ms : List Move} {s t : State} :
    runMoves (m :: ms) s = some t ↔ ∃ u, applyMove m s = some u ∧ runMoves ms u = some t := by
  rw [runMoves]
  cases applyMove m s <;> simp

/-- A halted core does not move (R207). -/
theorem coreMove_of_halted {s : State} {f : Fault} (hs : s.status = .halted f) : coreMove s = s := by
  simp only [coreMove, hs]

/-- No move but a reset takes a machine out of the halted status. -/
theorem applyMove_halted {m : Move} {s t : State} {f : Fault} (hs : s.status = .halted f) (hm : ∀ rom, m ≠ .reset rom)
    (h : applyMove m s = some t) : t.status = .halted f := by
  cases m with
  | reset rom => exact absurd rfl (hm rom)
  | tick =>
    obtain rfl := Option.some.inj h
    rw [coreMove_of_halted hs, hs]
  | keys pressed released =>
    obtain rfl := Option.some.inj h
    exact hs
  | takeFrame =>
    obtain rfl := Option.some.inj h
    exact hs

/-- Settles O13, by induction on the moves. -/
theorem haltedMachineStaysHalted : Obligations.HaltedMachineStaysHalted := by
  intro s f hs
  refine ⟨step_of_halted hs, fun ms => ?_⟩
  induction ms generalizing s with
  | nil =>
    intro t _ h
    obtain rfl := Option.some.inj h
    exact hs
  | cons m rest ih =>
    intro t hno h
    obtain ⟨u, hm, hrest⟩ := runMoves_cons.mp h
    have hu := applyMove_halted hs (fun rom e => hno rom (e ▸ List.mem_cons_self)) hm
    exact ih u hu t (fun rom hmem => hno rom (List.mem_cons_of_mem m hmem)) hrest

/-! Ticks after which the machine runs -/

/-- A run of ticks is the core's move repeated. -/
theorem runMoves_replicate_tick (n : Nat) (s : State) : runMoves (List.replicate n .tick) s = some (coreMove^[n] s) := by
  induction n generalizing s with
  | zero => rfl
  | succ n ih => exact ih (coreMove s)

/-- A machine that runs after a tick has completed a step in it: the other outcome of a step is a fault, which halts. -/
theorem step_eq_of_coreMove_running {s : State} (h : (coreMove s).status = .running) : step s = .next (coreMove s) := by
  cases hs : s.status with
  | halted f =>
    rw [coreMove_of_halted hs, hs] at h
    cases h
  | running =>
    cases hstep : step s with
    | next t => simp only [coreMove, hs, hstep]
    | fault f => simp [coreMove, hs, hstep, State.haltWith] at h
    | refused r => exact absurd hstep (step_ne_refused s r)

/-- A key is held after a tick that leaves the machine running exactly when the aggregation held it, and no release is left in the queue. -/
theorem coreMove_held {s : State} (h : (coreMove s).status = .running) (k : KeyId) :
    ((coreMove s).held[k.val] = true ↔ (s.held[k.val] = true ∨ k ∈ s.pressQ) ∧ k ∉ s.relQ) ∧ (coreMove s).relQ = [] := by
  obtain ⟨held, -, relQ⟩ := tickFoldsKeyEvents s _ (step_eq_of_coreMove_running h)
  exact ⟨held k, relQ⟩

/-- A key pressed and not released is held after any number of ticks without events, and no release is then queued. -/
theorem iterate_coreMove_held {s : State} {k : KeyId} (hp : k ∈ s.pressQ) (hr : k ∉ s.relQ) (n : Nat)
    (h : (coreMove^[n + 1] s).status = .running) : (coreMove^[n + 1] s).held[k.val] = true ∧ (coreMove^[n + 1] s).relQ = [] := by
  induction n with
  | zero =>
    obtain ⟨held, relQ⟩ := coreMove_held h k
    exact ⟨held.mpr ⟨.inr hp, hr⟩, relQ⟩
  | succ n ih =>
    rw [Function.iterate_succ_apply'] at h ⊢
    obtain ⟨running, -⟩ := step_next_iff.mp (step_eq_of_coreMove_running h)
    obtain ⟨heldBefore, relQBefore⟩ := ih running
    obtain ⟨held, relQ⟩ := coreMove_held h k
    exact ⟨held.mpr ⟨.inl heldBefore, relQBefore ▸ List.not_mem_nil⟩, relQ⟩

/-- Settles O58: the press is folded in by the first tick and kept by the others, the release is folded in by the tick that follows it. -/
theorem pressedKeyIsHeldUntilReleased : Obligations.PressedKeyIsHeldUntilReleased := by
  intro k n s t hr h ht
  obtain ⟨_, hkeys, hticks⟩ := runMoves_cons.mp h
  obtain rfl := Option.some.inj hkeys
  obtain rfl := Option.some.inj ((runMoves_replicate_tick _ _).symm.trans hticks)
  refine ⟨(iterate_coreMove_held (by simp [hostKeys]) (by simpa [hostKeys] using hr) n ht).1, fun u hu hurun => ?_⟩
  obtain rfl := Option.some.inj hu
  rw [Bool.eq_false_iff, ne_eq, (coreMove_held hurun k).1]
  simp [hostKeys]

/-- Settles O59: the last tick completed a step, which published the display it left; taking the frame empties the slot. -/
theorem takenFrameIsTheNewest : Obligations.TakenFrameIsTheNewest := by
  intro n s t h ht
  obtain rfl := Option.some.inj ((runMoves_replicate_tick _ _).symm.trans h)
  rw [Function.iterate_succ_apply'] at ht ⊢
  obtain ⟨published, -⟩ := tickPublishesTheDisplay _ _ (step_eq_of_coreMove_running ht)
  exact ⟨published, rfl⟩

end Sys2Proof.Machine
end

section
/-! The count of draws along the moves of the two agents (R161, log 4): only `RND` moves it, by one, and no move takes it back. -/

namespace Sys2Proof.Machine

@[simp] theorem aggregate_draws (s : State) : (aggregate s).draws = s.draws := rfl
@[simp] theorem publish_draws (s : State) : (publish s).draws = s.draws := rfl
@[simp] theorem decrementTimers_draws (s : State) : (decrementTimers s).draws = s.draws := rfl

/-- `RND` uses up one draw; the count is in no other instruction's footprint. -/
theorem exec_draws_le {i : Instr} {s t : State} (h : exec i s = .next t) : s.draws ≤ t.draws := by
  cases i with
  | rnd x nn =>
    obtain rfl := Host.Outcome.next.inj ((exec_rnd x nn s).symm.trans h)
    exact Nat.le_succ s.draws
  | _ => exact ((exec_unchanged h).draws rfl).ge

/-- Nothing in a step but its instruction touches the count. -/
theorem step_draws_le {s t : State} (h : step s = .next t) : s.draws ≤ t.draws := by
  obtain ⟨i, u, -, hu, rfl⟩ := step_next_iff_fetches.mp h
  simpa using exec_draws_le hu

/-- The core's move is the step where that completes. -/
theorem coreMove_of_step {s t : State} (h : step s = .next t) : coreMove s = t := by
  obtain ⟨running, -⟩ := step_next_iff.mp h
  simp only [coreMove, running, h]

/-- A tick keeps the count where it halts the machine or finds it halted. -/
theorem coreMove_draws_le (s : State) : s.draws ≤ (coreMove s).draws := by
  cases hs : s.status with
  | halted f => rw [coreMove_of_halted hs]
  | running =>
    cases hstep : step s with
    | next t => exact coreMove_of_step hstep ▸ step_draws_le hstep
    | fault f => simp only [coreMove, hs, hstep, State.haltWith, le_refl]
    | refused r => exact absurd hstep (step_ne_refused s r)

/-- A tick that executes an `RND` uses up one draw. -/
theorem coreMove_draws_of_fetches_rnd {s : State} {x : Nibble} {nn : Byte} (hf : Fetches s (.rnd x nn)) :
    (coreMove s).draws = s.draws + 1 := by
  rw [coreMove_of_step (hf.step_eq (exec_rnd x nn (aggregate s)))]
  simp

/-- A reset does not rewind the source of random bytes (R161, log 4). -/
theorem resetWith_draws {rom : List Byte} {n : Nat} {s : State} (h : resetWith rom n = some s) : s.draws = n := by
  unfold resetWith at h
  split at h
  · obtain rfl := Option.some.inj h
    rfl
  · cases h

/-- No move takes the count back. -/
theorem applyMove_draws_le {m : Move} {s t : State} (h : applyMove m s = some t) : s.draws ≤ t.draws := by
  cases m with
  | reset rom => exact (resetWith_draws h).ge
  | tick =>
    obtain rfl := Option.some.inj h
    exact coreMove_draws_le s
  | keys pressed released =>
    obtain rfl := Option.some.inj h
    exact le_rfl
  | takeFrame =>
    obtain rfl := Option.some.inj h
    exact le_rfl

/-- Nor does any sequence of moves. -/
theorem runMoves_draws_le {ms : List Move} {s t : State} (h : runMoves ms s = some t) : s.draws ≤ t.draws := by
  induction ms generalizing s with
  | nil =>
    obtain rfl := Option.some.inj h
    exact le_rfl
  | cons m rest ih =>
    obtain ⟨u, hm, hrest⟩ := runMoves_cons.mp h
    exact (applyMove_draws_le hm).trans (ih hrest)

/-- Settles O60: no move takes the count back, and the tick that executes the `RND` puts it above the one used. -/
theorem everyDrawIsFresh : Obligations.EveryDrawIsFresh := by
  refine ⟨fun _ _ _ => runMoves_draws_le, fun ms s t x nn hf h => ?_⟩
  obtain ⟨u, htick, hrest⟩ := runMoves_cons.mp h
  obtain rfl := Option.some.inj htick
  calc s.draws < s.draws + 1 := Nat.lt_succ_self _
    _ = (coreMove s).draws := (coreMove_draws_of_fetches_rnd hf).symm
    _ ≤ t.draws := runMoves_draws_le hrest

end Sys2Proof.Machine
end

section
/-! The display: what `CLS` (R180) and two equal draws (R181) do to it, and that no other instruction writes it (R33). -/

namespace Sys2Proof.Machine

theorem footprint_disp (s : State) {i : Instr} (hcls : i ≠ .cls) (hdrw : ∀ x y n, i ≠ .drw x y n) : (footprint s i).disp = false := by
  cases i with
  | cls => exact absurd rfl hcls
  | drw x y n => exact absurd rfl (hdrw x y n)
  | _ => rfl

/-- Settles O24: no footprint but those of `CLS` and `DRW` names the display. -/
theorem onlyClearAndDrawWriteDisplay : Obligations.OnlyClearAndDrawWriteDisplay :=
  fun _ s _ hcls hdrw h => (exec_unchanged h).disp (footprint_disp s hcls hdrw)

/-- Settles O53: the instruction blanks the display, and its step publishes that display. -/
theorem clearTurnsEveryCellOff : Obligations.ClearTurnsEveryCellOff := by
  refine ⟨decode_encode (i := .cls) rfl, fun s => ⟨_, exec_cls s, Display.cell_blank, add_two_toNat s.pc, exec_unchanged (exec_cls s), ?_⟩⟩
  exact fun hf => ⟨_, Display.blank, hf.step_eq (exec_cls (aggregate s)), rfl, Display.cell_blank⟩

/-- Two displays that agree on the cells of the 64 by 32 surface are the same. -/
theorem Display.ext_of_lt {d e : Display} (h : ∀ px py, px < 64 → py < 32 → Display.cell d px py = Display.cell e px py) : d = e :=
  Display.ext_cell fun x y => by
    rw [← Display.cell_mod d, ← Display.cell_mod e]
    exact h _ _ (Nat.mod_lt _ (by decide)) (Nat.mod_lt _ (by decide))

section
variable {x y n : Nibble} {s t : State}

/-- A cell under the sprite lies on the display. -/
theorem SpriteCovers.lt {px py : Nat} (h : SpriteCovers s x y n px py) : px < 64 ∧ py < 32 := by
  obtain ⟨row, -, col, -, -, rfl, rfl⟩ := h
  exact ⟨Nat.mod_lt _ (by decide), Nat.mod_lt _ (by decide)⟩

/-- The rows of a draw that completes all exist, if it has any. -/
theorem rows_exist_of_exec_drw_next (h : exec (.drw x y n) s = .next t) : n.toNat = 0 ∨ s.i.toNat + n.toNat ≤ 4095 := by
  by_contra hout
  rw [exec_drw_error (blitRows_faults s _ _ _ (by omega) (by omega))] at h
  cases h

/-- After a draw that left its coordinates alone, the same sprite covers the same cells: a draw writes neither memory nor `I`. -/
theorem spriteCovers_after_drw (h : exec (.drw x y n) s = .next t) (hx : t.getV x = s.getV x) (hy : t.getV y = s.getV y) (px py : Nat) :
    SpriteCovers t x y n px py ↔ SpriteCovers s x y n px py := by
  have kept := exec_unchanged h
  have hi : t.i = s.i := kept.i rfl
  have hmem : ∀ a, t.mem.get a = s.mem.get a := fun a => kept.bytes a List.not_mem_nil
  simp only [SpriteCovers, effAddr, hi, hmem, hx, hy]

open Classical in
/-- The cells after a draw that completes. -/
theorem exec_drw_next_cell (h : exec (.drw x y n) s = .next t) {px py : Nat} (hx : px < 64) (hy : py < 32) :
    Display.cell t.disp px py = if SpriteCovers s x y n px py then !Display.cell s.disp px py else Display.cell s.disp px py := by
  obtain ⟨c, hc, rfl⟩ := exec_drw_next h
  exact (drw_canvas_spec hc).1 px py hx hy

/-- The flag after a draw that completes: 1 when a cell that was on lies under the sprite, else 0. -/
theorem exec_drw_next_flag (h : exec (.drw x y n) s = .next t) {c : Bool}
    (hc : c = true ↔ ∃ px py, Display.cell s.disp px py = true ∧ SpriteCovers s x y n px py) : t.getV 15 = flagByte c := by
  obtain ⟨canvas, hcanvas, rfl⟩ := exec_drw_next h
  have hcoll : canvas.collision = c := by
    rw [Bool.eq_iff_iff, (drw_canvas_spec hcanvas).2, hc]
    exact exists₂_congr fun _ _ => ⟨fun ⟨_, _, hit⟩ => hit, fun hit => ⟨hit.2.lt.1, hit.2.lt.2, hit⟩⟩
  exact hcoll ▸ State.getV_setV_same _ flagReg _

/-- The same draw again completes: it reads the same rows. -/
theorem exec_drw_again (h : exec (.drw x y n) s = .next t) : ∃ u, exec (.drw x y n) t = .next u := by
  have hi : t.i = s.i := (exec_unchanged h).i rfl
  obtain ⟨c, hc⟩ := blitRows_of_rows_exist (x := x) (y := y) (hi ▸ rows_exist_of_exec_drw_next h)
  exact ⟨_, exec_drw_ok hc⟩

end

/-- Settles O55: the second draw toggles the cells the first one did, and on a clear display finds on exactly those. -/
theorem drawTwiceRestoresDisplay : Obligations.DrawTwiceRestoresDisplay := by
  intro x y n s t h hx hy
  obtain ⟨u, hu⟩ := exec_drw_again h
  have covers := spriteCovers_after_drw h hx hy
  refine ⟨u, hu, Display.ext_of_lt fun px py hpx hpy => ?_, fun clear => ⟨?_, fun ⟨px, py, hs⟩ => ?_, fun hnone => ?_⟩⟩
  · rw [exec_drw_next_cell hu hpx hpy, exec_drw_next_cell h hpx hpy]
    by_cases hs : SpriteCovers s x y n px py
    · rw [if_pos ((covers px py).mpr hs), if_pos hs, Bool.not_not]
    · rw [if_neg (mt (covers px py).mp hs), if_neg hs]
  · exact exec_drw_next_flag h (c := false) (by simp [clear])
  · have hon : Display.cell t.disp px py = true := by
      rw [exec_drw_next_cell h hs.lt.1 hs.lt.2, if_pos hs, clear, Bool.not_false]
    exact exec_drw_next_flag hu (c := true) ⟨fun _ => ⟨px, py, hon, (covers px py).mpr hs⟩, fun _ => rfl⟩
  · exact exec_drw_next_flag hu (c := false) (by simp [covers, hnone])

end Sys2Proof.Machine
end

section
/-! A block store followed by a block load (44_index_memory.md rules R174 and R175). -/

namespace Sys2Proof.Machine

/-- Settles O52: the load reads at the addresses of the store, which left each register there. -/
theorem blockStoreThenLoadRoundTrips : Obligations.BlockStoreThenLoadRoundTrips := by
  intro x s t u h hmem hi
  obtain ⟨-, hhi, hget⟩ := exec_storeRegs_next h
  have hi : u.i = s.i := hi.trans ((exec_unchanged h).i rfl)
  obtain ⟨-, -, hload⟩ := blockLoad x u
  obtain ⟨w, hw, hv, -⟩ := hload (by rw [hi]; omega)
  refine ⟨w, hw, fun r hr => ?_⟩
  rw [hv r hr, hmem, effAddr, hi, hget r hr]

end Sys2Proof.Machine
end

section
/-! A faulting tick (60_exceptions.md rule R206) and the reset (10_state.md rule R40, 70_reset_and_hazards.md rules R251 and R256). -/

namespace Sys2Proof.Machine

/-- The core's move over a step that faults takes the fault (R206). -/
theorem coreMove_of_fault {s : State} {f : Fault} (hs : s.status = .running) (h : step s = .fault f) : coreMove s = s.haltWith f := by
  simp only [coreMove, hs, h]

@[simp] theorem State.haltWith_status (s : State) (f : Fault) : (s.haltWith f).status = .halted f := rfl
@[simp] theorem State.haltWith_frame (s : State) (f : Fault) : (s.haltWith f).frame = s.frame := rfl

/-- The status port of a halted machine (R217). -/
theorem statusPort_of_halted {s : State} {f : Fault} (hs : s.status = .halted f) : statusPort s = some (faultCode f, faultInfo f) := by
  simp only [statusPort, hs]

/-- Settles O14: taking the fault writes the status and keeps the frame slot; the port reads the status. -/
theorem faultingTickLatchesStatus : Obligations.FaultingTickLatchesStatus := by
  intro s f hs h
  rw [coreMove_of_fault hs h]
  exact ⟨s.haltWith_status f, s.haltWith_frame f, statusPort_of_halted (s.haltWith_status f)⟩

/-- Settles O16: reset is the reset with the empty image. -/
theorem resetMeetsInvariant : Obligations.ResetMeetsInvariant :=
  ⟨resetWith_inv (rom := []) (n := 0) rfl, fun _ _ _ => resetWith_inv⟩

/-- The state after a reset with an image that fits (R251). -/
theorem resetWith_of_le {rom : List Byte} (n : Nat) (h : rom.length ≤ 3583) :
    resetWith rom n = some ((State.reset.setMem (installBytes [] 0x200 rom)).setDraws n) :=
  if_pos h

/-- An image that does not fit has no initial state (R256). -/
theorem resetWith_of_lt {rom : List Byte} (n : Nat) (h : 3583 < rom.length) : resetWith rom n = none :=
  if_neg (Nat.not_le.mpr h)

/-- The reset contents: the glyphs, then 0 (R40, R58). -/
theorem Memory.get_nil (a : Nat) : Memory.get [] a = Config.glyphRom[a]?.getD 0 := by
  simp [Memory.get, Memory.resetByte, Config.glyphBase, Config.memFill]

/-- The glyphs take 80 bytes. -/
theorem Memory.get_nil_of_le {a : Nat} (h : 80 ≤ a) : Memory.get [] a = 0 := by
  have hlen : Config.glyphRom.length = 80 := rfl
  rw [Memory.get_nil, List.getElem?_eq_none (hlen ▸ h), Option.getD_none]

/-- Inside the image memory holds its bytes. -/
theorem get_installBytes_inside (m : Memory) (a : Nat) {bs : List Byte} {j : Nat} (hj : j < bs.length) :
    (installBytes m a bs).get (a + j) = bs[j] := by
  have hin : a ≤ a + j ∧ a + j - a < bs.length := by omega
  rw [get_installBytes, dif_pos hin]
  simp only [Nat.add_sub_cancel_left]

/-- Outside the image memory is as it was. -/
theorem get_installBytes_outside (m : Memory) {a b : Nat} {bs : List Byte} (hb : b < a ∨ a + bs.length ≤ b) :
    (installBytes m a bs).get b = m.get b := by
  rw [get_installBytes, dif_neg (by omega)]

@[simp] theorem State.getV_reset (r : Nibble) : State.reset.getV r = 0 := by
  simp [State.getV, State.reset]

/-- Settles O19: memory is the reset contents with the image installed, every other component a constant of the table. -/
theorem resetLeavesTheTabledState : Obligations.ResetLeavesTheTabledState := by
  intro rom n
  refine ⟨resetWith_of_lt n, fun hfit => ⟨_, resetWith_of_le n hfit, rfl, rfl, rfl, rfl, rfl, rfl, rfl, rfl, rfl, rfl,
    State.getV_reset, fun k => ?_, Display.cell_blank, fun a ha => ?_, fun j hj => ?_, fun a ha hout => ?_⟩⟩
  · exact Vector.getElem_replicate k.isLt
  · exact (get_installBytes_outside [] (.inl (by omega))).trans (Memory.get_nil a)
  · rw [List.getElem?_eq_getElem hj, Option.getD_some]
    exact get_installBytes_inside [] 0x200 hj
  · exact (get_installBytes_outside [] hout).trans (Memory.get_nil_of_le ha)

end Sys2Proof.Machine
end
